-- ==== Sys2Proof/Word.lean ====
section
/-! DEFINITION. The word and byte types of the block (00_scope.md R8: WORD is 32 bits,
unsigned, wrap-around; BYTE is 8 bits). BitVec addition is addition modulo 2^32 (R10). -/

namespace Sys2Proof

/-- A 32-bit word (R8). -/
abbrev Word := BitVec 32

/-- An 8-bit byte (R8). -/
abbrev Byte := BitVec 8

end Sys2Proof
end

