-- ==== Sys2Proof/Config.lean ====
section
/-! DEFINITION. The free values of the spec (93_implementation_defined.md, treatment "any
value") and the open parameter no rule reads. None has a body, so no proof can see a value of
one. PB_BYTES, the other open parameter, is a field of State (log entry 3). -/

namespace Sys2Proof.Config

/-- The n-th byte drawn for a never-written byte of PB (20_memory.md R79, 93 U5). Log entry 5. -/
opaque freeByte : Nat → Byte

/-- The n-th word drawn: for a DIGESTi read while DONE = 0 (10_state.md R46, 93 U6; log entry 6), and for
each word of HS, WV and W at a hardware reset (70_reset_and_hazards.md R240; log entry 14). -/
opaque freeWord : Nat → Word

/-- The value of digest_out while DONE = 0 (10_state.md R50, 93 U7). Log entry 6. -/
opaque freeDigest : Nat → BitVec 256

/-- REG_BASE, where the REG space sits in a larger system: no rule of the spec reads it
(20_memory.md R72, 93 U4). Log entry 16. -/
opaque regBase : Nat

end Sys2Proof.Config
end

