-- ==== Sys2Proof/Syntax.lean ====
section
/-! DEFINITION. The operations of the block: one constructor per row of spec/opcode_table.json,
the three formats their words are written in (30_encoding.md R80), and the response format. -/

namespace Sys2Proof

/-- The 18 operations. A micro-operation's index operand is the 8-bit idx field (R81, R86); a host
transaction carries its 32-bit addr and data fields, data also where it is ignored (R83); a CTRL
command carries the bits of its data word that do not select it (R85), though its meaning
ignores them (R90). -/
inductive Instr where
  | idle
  | initH
  | padMark
  | padZero
  | padLen
  | schedLoad (t : BitVec 8)
  | schedExp (t : BitVec 8)
  | wvInit
  | round (t : BitVec 8)
  | accum
  | blockNext
  | regRead (addr data : Word)
  | regWrite (addr data : Word)
  | msgRead (addr data : Word)
  | msgWrite (addr data : Word)
  | ctrlSreset (reserved : BitVec 30) (start : BitVec 1)
  | ctrlStart (reserved : BitVec 30)
  | ctrlNop (reserved : BitVec 30)
  deriving DecidableEq, Repr

/-- A word of one of the three operation formats (R80): UOP, HREQ, CTRLW. The formats belong to
three interfaces, so a word is always known together with its format. -/
inductive Code where
  | uop (w : BitVec 16)
  | hreq (w : BitVec 66)
  | ctrlw (w : BitVec 32)
  deriving DecidableEq, Repr

/-- Why a word is no operation. -/
inductive DecodeError where
  /-- A UOP word that selects no row of R82 (R88). HREQ and CTRLW have no such word (R95). -/
  | reservedUop (w : BitVec 16)
  deriving DecidableEq, Repr

/-- The command a CTRL write selects (R85, 44_host_interface.md R195). -/
inductive Command where
  | sreset
  | start
  | nop
  deriving DecidableEq, Repr

/-- The response to one host request (R84). -/
structure HResp where
  /-- true = BUSERR, false = OK. -/
  err : Bool
  rdata : Word
  deriving DecidableEq, Repr

end Sys2Proof
end

