-- ==== Sys2Proof/WellFormed.lean ====
section
/-! DEFINITION. Which terms of Instr are operations of the block: the index operand of
SCHED_LOAD, SCHED_EXP and ROUND lies in the legal range of its row (30_encoding.md R82); every
other field is significant at every value or ignored. -/

namespace Sys2Proof

/-- The legal idx ranges of R82. -/
def Instr.wf : Instr → Bool
  | .schedLoad t => decide (t.toNat < 16)
  | .schedExp t => decide (16 ≤ t.toNat) && decide (t.toNat < 64)
  | .round t => decide (t.toNat < 64)
  | .idle | .initH | .padMark | .padZero | .padLen | .wvInit | .accum | .blockNext => true
  | .regRead _ _ | .regWrite _ _ | .msgRead _ _ | .msgWrite _ _ => true
  | .ctrlSreset _ _ | .ctrlStart _ | .ctrlNop _ => true

/-- The same as a proposition that `decide` evaluates. -/
abbrev Instr.WellFormed (i : Instr) : Prop := i.wf = true

end Sys2Proof
end

