-- ==== Sys2Proof/Decode.lean ====
section
/-! DEFINITION. The three decoders (30_encoding.md R82, R83, R85), total on every word and
rejecting reserved UOP words by name, then the encoder written from the same tables. -/

namespace Sys2Proof

/-! The phase codes of 10_state.md R35. -/

abbrev Phase.idle : BitVec 8 := 0x00#8
abbrev Phase.initH : BitVec 8 := 0x01#8
abbrev Phase.padMark : BitVec 8 := 0x02#8
abbrev Phase.padZero : BitVec 8 := 0x03#8
abbrev Phase.padLen : BitVec 8 := 0x04#8
abbrev Phase.schedLoad : BitVec 8 := 0x05#8
abbrev Phase.schedExp : BitVec 8 := 0x06#8
abbrev Phase.wvInit : BitVec 8 := 0x07#8
abbrev Phase.round : BitVec 8 := 0x08#8
abbrev Phase.accum : BitVec 8 := 0x09#8
abbrev Phase.blockNext : BitVec 8 := 0x0A#8

/-- Format UOP: idx = w[7:0] (R81). -/
def uopIdx (w : BitVec 16) : BitVec 8 := w.extractLsb' 0 8

/-- Format UOP: SEQ = phase ‖ idx (R81). -/
def uopWord (phase idx : BitVec 8) : BitVec 16 := phase ++ idx

/-- A word selects a row of R82 when (w and mask) = match. -/
def uopSelects (w mask pattern : BitVec 16) : Bool := w &&& mask == pattern

/-- The opcode map of R82, row by row; a word that selects no row is reserved (R88). The index
operand is idx unchanged (R86): the bits a row's mask fixes are zero in idx. -/
def decodeUop (w : BitVec 16) : Except DecodeError Instr :=
  let t := uopIdx w
  if uopSelects w 0xFFFF#16 0x0000#16 then .ok .idle
  else if uopSelects w 0xFFFF#16 0x0100#16 then .ok .initH
  else if uopSelects w 0xFFFF#16 0x0200#16 then .ok .padMark
  else if uopSelects w 0xFFFF#16 0x0300#16 then .ok .padZero
  else if uopSelects w 0xFFFF#16 0x0400#16 then .ok .padLen
  else if uopSelects w 0xFFF0#16 0x0500#16 then .ok (.schedLoad t)
  else if uopSelects w 0xFFC0#16 0x0600#16 && decide (16 ≤ t.toNat) then .ok (.schedExp t)
  else if uopSelects w 0xFFFF#16 0x0700#16 then .ok .wvInit
  else if uopSelects w 0xFFC0#16 0x0800#16 then .ok (.round t)
  else if uopSelects w 0xFFFF#16 0x0900#16 then .ok .accum
  else if uopSelects w 0xFFFF#16 0x0A00#16 then .ok .blockNext
  else .error (.reservedUop w)

/-- Format HREQ: kind = w[65:64], addr = w[63:32], data = w[31:0]; all four kinds are defined
(R83, R89). -/
def decodeHreq (w : BitVec 66) : Instr :=
  let kind : BitVec 2 := w.extractLsb' 64 2
  let addr : Word := w.extractLsb' 32 32
  let data : Word := w.extractLsb' 0 32
  if kind = 0b00#2 then .regRead addr data
  else if kind = 0b01#2 then .regWrite addr data
  else if kind = 0b10#2 then .msgRead addr data
  else .msgWrite addr data

/-- Format CTRLW: which command the data word of a CTRL write selects (R85, R195): bit 1 wins, then
bit 0; bits 31:2 are not read. -/
def commandOf (data : Word) : Command :=
  if data.extractLsb' 1 1 = 1#1 then .sreset
  else if data.extractLsb' 0 1 = 1#1 then .start
  else .nop

/-- Format CTRLW as an operation, with the bits that do not select it. -/
def decodeCtrlw (w : BitVec 32) : Instr :=
  match commandOf w with
  | .sreset => .ctrlSreset (w.extractLsb' 2 30) (w.extractLsb' 0 1)
  | .start => .ctrlStart (w.extractLsb' 2 30)
  | .nop => .ctrlNop (w.extractLsb' 2 30)

/-- The decoder of all three formats. -/
def decode : Code → Except DecodeError Instr
  | .uop w => decodeUop w
  | .hreq w => .ok (decodeHreq w)
  | .ctrlw w => .ok (decodeCtrlw w)

/-- kind ‖ addr ‖ data (R83). -/
def hreqWord (kind : BitVec 2) (addr data : Word) : BitVec 66 := kind ++ addr ++ data

/-- reserved ‖ SRESET ‖ START (R85). -/
def ctrlWord (reserved : BitVec 30) (sreset start : BitVec 1) : BitVec 32 :=
  reserved ++ sreset ++ start

/-- The encoder, from the encoding lines of the operations (R82, R83, R85). -/
def encode : Instr → Code
  | .idle => .uop (uopWord Phase.idle 0#8)
  | .initH => .uop (uopWord Phase.initH 0#8)
  | .padMark => .uop (uopWord Phase.padMark 0#8)
  | .padZero => .uop (uopWord Phase.padZero 0#8)
  | .padLen => .uop (uopWord Phase.padLen 0#8)
  | .schedLoad t => .uop (uopWord Phase.schedLoad t)
  | .schedExp t => .uop (uopWord Phase.schedExp t)
  | .wvInit => .uop (uopWord Phase.wvInit 0#8)
  | .round t => .uop (uopWord Phase.round t)
  | .accum => .uop (uopWord Phase.accum 0#8)
  | .blockNext => .uop (uopWord Phase.blockNext 0#8)
  | .regRead addr data => .hreq (hreqWord 0b00#2 addr data)
  | .regWrite addr data => .hreq (hreqWord 0b01#2 addr data)
  | .msgRead addr data => .hreq (hreqWord 0b10#2 addr data)
  | .msgWrite addr data => .hreq (hreqWord 0b11#2 addr data)
  | .ctrlSreset reserved start => .ctrlw (ctrlWord reserved 1#1 start)
  | .ctrlStart reserved => .ctrlw (ctrlWord reserved 0#1 1#1)
  | .ctrlNop reserved => .ctrlw (ctrlWord reserved 0#1 0#1)

/-- Format HRESP: err ‖ rdata (R84). -/
def encodeHresp (r : HResp) : BitVec 33 := BitVec.ofBool r.err ++ r.rdata

/-- The operation read from a word of the opcode table: a row of at most 16 bits is a UOP, one of at
most 32 a CTRLW, a wider one an HREQ, whose 66 bits fill nine bytes with six zero bits on top
(log entry 18). -/
def decodeTableWord (nbits w : Nat) : Option Instr :=
  if nbits ≤ 16 then
    if w < 2 ^ 16 then (decodeUop (BitVec.ofNat 16 w)).toOption else none
  else if nbits ≤ 32 then
    if w < 2 ^ 32 then some (decodeCtrlw (BitVec.ofNat 32 w)) else none
  else if w < 2 ^ 66 then some (decodeHreq (BitVec.ofNat 66 w)) else none

end Sys2Proof
end

