-- ==== Sys2Proof/Machine/Functions.lean ====
section
/-! DEFINITION. The pure functions of the datapath: rotation (00_scope.md R11), the sigma functions
(41_schedule.md R120, R121; 42_compression.md R140, R141), Ch and Maj (R142, R143), one round (R146),
the addition of two hash states (R148), and the arithmetic of the padding (40_padding.md R100 to
R102). -/

namespace Sys2Proof.Machine

/-- rotr(x, n) = (x >> n) or (x << (32 - n)), for 0 < n < 32 (R11). -/
def rotr (x : Word) (n : Nat) : Word := (x >>> n) ||| (x <<< (32 - n))

/-- σ0 (R120). -/
def smallSigma0 (x : Word) : Word := rotr x 7 ^^^ rotr x 18 ^^^ (x >>> 3)

/-- σ1 (R121). -/
def smallSigma1 (x : Word) : Word := rotr x 17 ^^^ rotr x 19 ^^^ (x >>> 10)

/-- Σ0 (R140). -/
def bigSigma0 (x : Word) : Word := rotr x 2 ^^^ rotr x 13 ^^^ rotr x 22

/-- Σ1 (R141). -/
def bigSigma1 (x : Word) : Word := rotr x 6 ^^^ rotr x 11 ^^^ rotr x 25

/-- Ch (R142). -/
def ch (x y z : Word) : Word := (x &&& y) ^^^ (~~~x &&& z)

/-- Maj (R143). -/
def maj (x y z : Word) : Word := (x &&& y) ^^^ (x &&& z) ^^^ (y &&& z)

/-- T1 of a round on the working variables v (R146). -/
def roundT1 (v : Vector Word 8) (k w : Word) : Word :=
  v[7] + bigSigma1 v[4] + ch v[4] v[5] v[6] + k + w

/-- T2 of a round on the working variables v (R146). -/
def roundT2 (v : Vector Word 8) : Word := bigSigma0 v[0] + maj v[0] v[1] v[2]

/-- One round: all eight variables change at once, each from the values before (R146, 00 R14). -/
def roundOf (v : Vector Word 8) (k w : Word) : Vector Word 8 :=
  #v[roundT1 v k w + roundT2 v, v[0], v[1], v[2], v[3] + roundT1 v k w, v[4], v[5], v[6]]

/-- Eight additions, each wrapping on its own (R148). -/
def addWords (h v : Vector Word 8) : Vector Word 8 :=
  #v[h[0] + v[0], h[1] + v[1], h[2] + v[2], h[3] + v[3],
     h[4] + v[4], h[5] + v[5], h[6] + v[6], h[7] + v[7]]

/-- The σ recurrence of the schedule from W[t-2], W[t-7], W[t-15] and W[t-16] (R125). -/
def schedSum (w2 w7 w15 w16 : Word) : Word := smallSigma1 w2 + w7 + smallSigma0 w15 + w16

/-- Z(L) = (55 - L) mod 64, the number of zero fill bytes (R102). -/
def zeroCount (len : Nat) : Nat := (64 + 55 - len % 64) % 64

/-- PBLEN(L) = 64 · (floor((L + 8) / 64) + 1), the padded length in bytes (R102). -/
def pbLen (len : Nat) : Nat := 64 * ((len + 8) / 64 + 1)

/-- bitlen = L[60:0] ‖ 000 (R100, R106). -/
def bitLen (len : BitVec 64) : BitVec 64 := len.extractLsb' 0 61 ++ 0#3

/-- The eight bytes of a 64-bit value, most significant first (20_memory.md R63). -/
def be64 (v : BitVec 64) : List Byte := (List.range 8).map fun j => v.extractLsb' (56 - 8 * j) 8

end Sys2Proof.Machine
end

