-- ==== Sys2Proof/Machine/State.lean ====
section
/-! DEFINITION. The state of the block (10_state.md), plain data: every register the spec names, the
padded-buffer memory, the response port, and the model's own three fields (the turns to come and
the count of free values drawn). Then the reasons a step can stop, and State.reset. -/

namespace Sys2Proof.Machine

/-- PB as (index, byte) pairs, indexes strictly rising (Memory.wf). An unlisted index is a byte never
written since power-on (20_memory.md R79); log entry 5. -/
abbrev Memory := List Host.Cell

/-- Whose step comes next in the one total order of steps (20_memory.md R73). Log entry 1. -/
inductive Turn where
  /-- The core steps (43_sequencer.md R170). -/
  | core
  /-- The host issues the request of this HREQ word (44_host_interface.md R190). -/
  | request (w : BitVec 66)
  /-- The host writes this CTRLW word to CTRL (44_host_interface.md R195). Log entry 9. -/
  | command (w : BitVec 32)
  /-- The platform asserts the hardware reset input (70_reset_and_hazards.md R240). Log entry 14. -/
  | powerOn
  deriving DecidableEq, Repr

/-- Everything the spec gives the machine. -/
structure State where
  /-- HS[0..7], the hash state (R31). -/
  hs : Vector Word 8
  /-- WV[0..7], the working variables a..h (R32). -/
  wv : Vector Word 8
  /-- W[0..63], the message schedule (R33). -/
  w : Vector Word 64
  /-- The sequencer's phase code (R35). -/
  phase : BitVec 8
  /-- The sequencer's index (R35). -/
  idx : BitVec 8
  /-- PTR, the padding unit's byte index into PB (R36). -/
  ptr : BitVec 64
  /-- blk, the block being processed (R37). -/
  blk : BitVec 64
  /-- NBLK, the number of blocks (R37, R45). -/
  nblk : BitVec 64
  /-- STATUS.BUSY (R41). -/
  busy : Bool
  /-- STATUS.DONE (R41). -/
  done : Bool
  /-- STATUS.ERR (R41). -/
  err : Bool
  /-- STATUS.ERRCODE (R41). -/
  errcode : BitVec 4
  /-- L = LEN_HI ‖ LEN_LO, the message length in bytes (R42). -/
  len : BitVec 64
  /-- IRQEN.DONE_IE (R43). -/
  doneIe : Bool
  /-- IRQEN.ERR_IE (R43). -/
  errIe : Bool
  /-- PB, the padded-buffer memory (R51, 20_memory.md R60). -/
  pb : Memory
  /-- The instance's PB_BYTES as the number of its last 64-byte block: PB_BYTES = 64 · (this + 1), so
  that every value is a legal PB_BYTES (00_scope.md R8). No step writes it. Log entry 3. -/
  pbLastBlock : BitVec 26
  /-- The response to the last host transaction, none before the first (30_encoding.md R84). Log
  entry 8. -/
  hresp : Option HResp
  /-- The turns still to come, next first. The model's own field, log entry 1. -/
  agenda : List Turn
  /-- The turn taken at every step once the agenda is empty: the core's, or another agent's for ever
  (70_reset_and_hazards.md R252). The model's own field, log entry 17. -/
  thereafter : Turn
  /-- How many free values have been drawn. The model's own field, log entry 7. -/
  draws : Nat
  deriving DecidableEq, Repr

/-- Why the machine stops with a fault. -/
inductive Fault where
  /-- Raised by PAD_MARK, PAD_ZERO, PAD_LEN and SCHED_LOAD on a PB index that does not exist
  (20_memory.md R60). No accepted run reaches one (R67). Safe. Log entry 10. -/
  | pbOutOfRange
  deriving DecidableEq, Repr

/-- Why the machine gives a state or an operation no meaning. -/
inductive Refusal where
  /-- Raised by exec's arm of an instruction without a meaning yet: no arm is left so. Safe. -/
  | notModelled (mnemonic : String)
  /-- Raised by fetch in a state whose (phase, idx) selects no row, and by SCHED_LOAD, SCHED_EXP and
  ROUND on an index operand out of their row's range (30_encoding.md R88, 43_sequencer.md R179).
  Unreachable. Safe. Log entry 11. -/
  | reservedUop
  /-- Raised by fetch in a state whose ERRCODE is one of 3 .. 15 (93_implementation_defined.md U12).
  Unreachable. Safe. Log entry 11. -/
  | reservedErrcode
  deriving DecidableEq, Repr

/-- What the fetch of a turn gives. -/
inductive Fetched where
  | run (i : Instr)
  | powerOn
  | refuse (r : Refusal)
  deriving DecidableEq, Repr

/-- The outcome of one operation. -/
abbrev Result := Host.Outcome State Fault Refusal

/-- The power-on column of R52. HS, WV and W are unspecified there; the model names zero (log entry
4). PB_BYTES is the 4096 of the spec's test vectors (log entry 3). -/
def State.reset : State where
  hs := Vector.replicate 8 0#32
  wv := Vector.replicate 8 0#32
  w := Vector.replicate 64 0#32
  phase := 0x00#8
  idx := 0#8
  ptr := 0#64
  blk := 0#64
  nblk := 0#64
  busy := false
  done := false
  err := false
  errcode := 0#4
  len := 0#64
  doneIe := false
  errIe := false
  pb := []
  pbLastBlock := 63#26
  hresp := none
  agenda := []
  thereafter := .core
  draws := 0

end Sys2Proof.Machine
end

