-- ==== Sys2Proof/Machine/Ops.lean ====
section
/-! DEFINITION. The named operations over memory and registers: reading and writing PB
(20_memory.md R62, R63, R79), moving the sequencer, answering the host (30_encoding.md R84), taking
a START error (60_exceptions.md R222: the block's only exception entry; it has no return, R224), the
start of a run (44_host_interface.md R196), the soft reset (R197) and the hardware reset
(70_reset_and_hazards.md R240). -/

namespace Sys2Proof.Machine

/-- The byte last written at an index, none if it was never written (R79). -/
def Memory.byteAt : Memory → Nat → Option Byte
  | [], _ => none
  | (k, b) :: m, a => if a = k then some b else Memory.byteAt m a

/-- PB[a] <- b, keeping the canonical form. -/
def Memory.set : Memory → Nat → Byte → Memory
  | [], a, b => [(a, b)]
  | (k, c) :: m, a, b =>
    if a < k then (a, b) :: (k, c) :: m
    else if a = k then (a, b) :: m
    else (k, c) :: Memory.set m a b

/-- Consecutive bytes from an index upwards (MemWrite of several bytes, R63). -/
def Memory.setBytes (m : Memory) (a : Nat) : List Byte → Memory
  | [] => m
  | b :: bs => Memory.setBytes (m.set a b) (a + 1) bs

/-- The canonical form: indexes strictly rising. Every listed byte was written, so no entry equals
what an unlisted index reads as. -/
def Memory.wf : Memory → Bool
  | [] => true
  | [_] => true
  | (k, _) :: (l, c) :: m => decide (k < l) && Memory.wf ((l, c) :: m)

/-- MemRead(a, 1) with the draw counter d: the byte, or a fresh free byte if it was never written
(R62, R79), and the counter after. -/
def Memory.read (m : Memory) (a d : Nat) : Byte × Nat :=
  match m.byteAt a with
  | some b => (b, d)
  | none => (Config.freeByte d, d + 1)

/-- MemRead(a, 4), big-endian: PB[a] supplies bits 31:24 (R62). -/
def Memory.readWord (m : Memory) (a d : Nat) : Word × Nat :=
  let r0 := m.read a d
  let r1 := m.read (a + 1) r0.2
  let r2 := m.read (a + 2) r1.2
  let r3 := m.read (a + 3) r2.2
  (r0.1 ++ r1.1 ++ r2.1 ++ r3.1, r3.2)

/-- PB_BYTES of the instance (00_scope.md R8). -/
def State.pbBytes (s : State) : Nat := 64 * (s.pbLastBlock.toNat + 1)

/-- seq <- (phase, idx) (00_scope.md R13). -/
def State.goto (s : State) (phase idx : BitVec 8) : State := { s with phase := phase, idx := idx }

/-- The current UOP word, SEQ[15:0] (30_encoding.md R81). -/
def State.seq (s : State) : BitVec 16 := uopWord s.phase s.idx

/-- respond OK(d) (00_scope.md R13, 30_encoding.md R84). -/
def State.respondOk (s : State) (d : Word) : State := { s with hresp := some ⟨false, d⟩ }

/-- respond BUSERR: rdata is 0 and nothing else changes (60_exceptions.md R225). -/
def State.respondBusErr (s : State) : State := { s with hresp := some ⟨true, 0#32⟩ }

/-- raise Err(code): the entry of a START error (60_exceptions.md R222). No program counter or mode is
saved or changed. -/
def State.raiseErr (s : State) (code : BitVec 4) : State := { s with err := true, errcode := code }

/-- What an idle CTRL_START clears before its checks (44_host_interface.md R196). -/
def State.clearForStart (s : State) : State :=
  { s with done := false, err := false, errcode := 0#4, nblk := 0#64 }

/-- The start of a run (R196). -/
def State.beginRun (s : State) : State :=
  { s with busy := true, ptr := s.len, blk := 0#64 }.goto Phase.initH 0#8

/-- CTRL_START without its response: ignored while busy, else the checks in the order of
60_exceptions.md R223 (R196). -/
def State.start (s : State) : State :=
  if s.busy then s
  else if 2 ^ 61 ≤ s.len.toNat then s.clearForStart.raiseErr 1#4
  else if s.pbBytes < pbLen s.len.toNat then s.clearForStart.raiseErr 2#4
  else s.clearForStart.beginRun

/-- CTRL_SRESET without its response: the CTRL_SRESET column of 10_state.md R52 (R197). -/
def State.softReset (s : State) : State :=
  { s with
    busy := false, done := false, err := false, errcode := 0#4
    ptr := 0#64, blk := 0#64, nblk := 0#64 }.goto Phase.idle 0#8

/-- n words that are free values, from the draw counter d on. -/
def freeWords (n d : Nat) : Vector Word n := Vector.ofFn fun i => Config.freeWord (d + i.val)

/-- The hardware reset input: the power-on column of R52, in which each word of HS, WV and W is a free
draw (70 R240). The instance's PB_BYTES and the turns to come are no registers and stay; the
counter moves past the 80 draws. Log entry 14. -/
def State.hardReset (s : State) : State :=
  { State.reset with
    hs := freeWords 8 s.draws
    wv := freeWords 8 (s.draws + 8)
    w := freeWords 64 (s.draws + 16)
    pbLastBlock := s.pbLastBlock
    agenda := s.agenda
    thereafter := s.thereafter
    draws := s.draws + 80 }

end Sys2Proof.Machine
end

