-- ==== Sys2Proof/Machine/Operands.lean ====
section
/-! DEFINITION. The operand forms (30_encoding.md R86, R87): which register a REG address names,
which byte of PB a MSG address names, the byte of a MSG_WRITE, and the block word's address. -/

namespace Sys2Proof.Machine

/-- The registers of the REG space (10_state.md R39). -/
inductive Reg where
  | ctrl
  | status
  | lenLo
  | lenHi
  | irqen
  | seq
  | nblk
  | digest (i : Fin 8)
  /-- Offsets 0x1C and 0x40 .. 0xFC: read as zero, writes ignored (R47). -/
  | reserved
  deriving DecidableEq, Repr

/-- off = addr[7:0], legal only if addr[31:8] = 0 and addr[1:0] = 0 (R87). -/
def regOffset (addr : Word) : Option (BitVec 8) :=
  if addr.extractLsb' 8 24 = 0#24 ∧ addr.extractLsb' 0 2 = 0#2 then some (addr.extractLsb' 0 8)
  else none

/-- The register map of 10_state.md R39, for an offset that is a multiple of 4. -/
def regAt (off : BitVec 8) : Reg :=
  if off = 0x00#8 then .ctrl
  else if off = 0x04#8 then .status
  else if off = 0x08#8 then .lenLo
  else if off = 0x0C#8 then .lenHi
  else if off = 0x10#8 then .irqen
  else if off = 0x14#8 then .seq
  else if off = 0x18#8 then .nblk
  else if off.extractLsb' 5 3 = 0b001#3 then .digest (off.extractLsb' 2 3).toFin
  else .reserved

/-- The register a REG address names; none where the access is answered BUSERR (R225 causes 1, 2). -/
def regNamed (addr : Word) : Option Reg := (regOffset addr).map regAt

/-- The PB index a MSG address names; none at or above PB_BYTES (R225 cause 4). -/
def State.msgIndex (s : State) (addr : Word) : Option Nat :=
  if addr.toNat < s.pbBytes then some addr.toNat else none

/-- The byte of a MSG_WRITE: data[7:0] (R87). -/
def msgByte (data : Word) : Byte := data.extractLsb' 0 8

/-- SCHED_LOAD's address 64·blk + 4·t (R86, 41_schedule.md R124). -/
def State.blockWordAddr (s : State) (t : Nat) : Nat := 64 * s.blk.toNat + 4 * t

end Sys2Proof.Machine
end

