-- ==== Sys2Proof/Machine/Compression.lean ====
section
/-! DEFINITION. The compression engine's micro-operations (42_compression.md R144, R145, R147,
R148). -/

namespace Sys2Proof.Machine

/-- INIT_H: HS[i] <- IV[i] (R144). -/
def execInitH (s : State) : Result := .next ({ s with hs := ivRom }.goto Phase.padMark 0#8)

/-- WV_INIT: WV[i] <- HS[i] (R145). -/
def execWvInit (s : State) : Result := .next ({ s with wv := s.hs }.goto Phase.round 0#8)

/-- ROUND t: one compression round with K[t] and W[t] (R147). -/
def execRound (t : BitVec 8) (s : State) : Result :=
  if h : t.toNat < 64 then
    let s' := { s with wv := roundOf s.wv kRom[t.toNat] s.w[t.toNat] }
    .next (if t.toNat < 63 then s'.goto Phase.round (t + 1#8) else s'.goto Phase.accum 0#8)
  else .refused .reservedUop

/-- ACCUM: HS[i] <- HS[i] + WV[i] (R148). -/
def execAccum (s : State) : Result :=
  .next ({ s with hs := addWords s.hs s.wv }.goto Phase.blockNext 0#8)

end Sys2Proof.Machine
end

