-- ==== Sys2Proof/Machine/Padding.lean ====
section
/-! DEFINITION. The padding unit's micro-operations (40_padding.md R104 to R106). -/

namespace Sys2Proof.Machine

/-- Append one byte at PTR and choose the next phase by the new PTR mod 64 alone (R104, R105, R108). -/
def appendPad (b : Byte) (s : State) : Result :=
  if s.ptr.toNat < s.pbBytes then
    let next := s.ptr + 1#64
    .next <| { s with pb := s.pb.set s.ptr.toNat b, ptr := next }.goto
      (if next.toNat % 64 = 56 then Phase.padLen else Phase.padZero) 0#8
  else .fault .pbOutOfRange

/-- PAD_MARK: append the 0x80 marker (R104). -/
def execPadMark (s : State) : Result := appendPad 0x80#8 s

/-- PAD_ZERO: append one zero byte (R105). -/
def execPadZero (s : State) : Result := appendPad 0x00#8 s

/-- PAD_LEN: append the 64-bit big-endian bit length in one step (R106). -/
def execPadLen (s : State) : Result :=
  if s.ptr.toNat + 8 ≤ s.pbBytes then
    .next <| { s with
      pb := s.pb.setBytes s.ptr.toNat (be64 (bitLen s.len))
      nblk := (s.ptr + 8#64) >>> 6
      ptr := s.ptr + 8#64 }.goto Phase.schedLoad 0#8
  else .fault .pbOutOfRange

end Sys2Proof.Machine
end

