-- ==== Sys2Proof/Machine/Schedule.lean ====
section
/-! DEFINITION. The message schedule expander's micro-operations (41_schedule.md R124, R125). -/

namespace Sys2Proof.Machine

/-- SCHED_LOAD t: W[t] from the block, big-endian (R124). -/
def execSchedLoad (t : BitVec 8) (s : State) : Result :=
  if h : t.toNat < 16 then
    let a := s.blockWordAddr t.toNat
    if a + 4 ≤ s.pbBytes then
      let r := s.pb.readWord a s.draws
      let s' := { s with w := s.w.set t.toNat r.1, draws := r.2 }
      .next (if t.toNat < 15 then s'.goto Phase.schedLoad (t + 1#8) else s'.goto Phase.schedExp 16#8)
    else .fault .pbOutOfRange
  else .refused .reservedUop

/-- SCHED_EXP t: W[t] by the σ recurrence (R125). -/
def execSchedExp (t : BitVec 8) (s : State) : Result :=
  if h : 16 ≤ t.toNat ∧ t.toNat < 64 then
    let n := t.toNat
    let s' := { s with w := s.w.set n (schedSum s.w[n - 2] s.w[n - 7] s.w[n - 15] s.w[n - 16]) }
    .next (if n < 63 then s'.goto Phase.schedExp (t + 1#8) else s'.goto Phase.wvInit 0#8)
  else .refused .reservedUop

end Sys2Proof.Machine
end

