-- ==== Sys2Proof/Machine/Sequencer.lean ====
section
/-! DEFINITION. The sequencer's micro-operations (43_sequencer.md R172, R173). -/

namespace Sys2Proof.Machine

/-- IDLE: no operation; the core is quiescent and nothing changes (R172, log entry 2). -/
def execIdle (s : State) : Result := .next s

/-- BLOCK_NEXT: the next block, or the end of the run (R173). -/
def execBlockNext (s : State) : Result :=
  let blk := s.blk + 1#64
  .next (if blk.toNat < s.nblk.toNat then { s with blk := blk }.goto Phase.schedLoad 0#8
    else { s with blk := blk, busy := false, done := true }.goto Phase.idle 0#8)

end Sys2Proof.Machine
end

