-- ==== Sys2Proof/Machine/Commands.lean ====
section
/-! DEFINITION. The commands written to CTRL (44_host_interface.md R195 to R198). Each is answered
OK(0); the bits of the data word that do not select it are ignored (30_encoding.md R90). -/

namespace Sys2Proof.Machine

/-- CTRL_SRESET (R197). -/
def execCtrlSreset (_reserved : BitVec 30) (_start : BitVec 1) (s : State) : Result :=
  .next (s.softReset.respondOk 0#32)

/-- CTRL_START (R196). -/
def execCtrlStart (_reserved : BitVec 30) (s : State) : Result := .next (s.start.respondOk 0#32)

/-- CTRL_NOP (R198). -/
def execCtrlNop (_reserved : BitVec 30) (s : State) : Result := .next (s.respondOk 0#32)

/-- A REG_WRITE to CTRL executes exactly one command, the one its data selects (R195). -/
def runCommand (data : Word) (s : State) : Result :=
  match commandOf data with
  | .sreset => execCtrlSreset (data.extractLsb' 2 30) (data.extractLsb' 0 1) s
  | .start => execCtrlStart (data.extractLsb' 2 30) s
  | .nop => execCtrlNop (data.extractLsb' 2 30) s

end Sys2Proof.Machine
end

