-- ==== Sys2Proof/Machine/Flags.lean ====
section
/-! DEFINITION. The status and control words the host reads (10_state.md R41 to R46) and the two
output ports (R50). -/

namespace Sys2Proof.Machine

/-- The irq level (R50, 60_exceptions.md R228). -/
def State.irq (s : State) : Bool := (s.done && s.doneIe) || (s.err && s.errIe)

/-- STATUS = zext_32(IRQ ‖ ERRCODE ‖ 0 ‖ ERR ‖ DONE ‖ BUSY) (R41, 44_host_interface.md R191). -/
def State.statusWord (s : State) : Word :=
  (BitVec.ofBool s.irq ++ s.errcode ++ 0#1 ++ BitVec.ofBool s.err ++ BitVec.ofBool s.done ++
    BitVec.ofBool s.busy).setWidth 32

/-- IRQEN = zext_32(ERR_IE ‖ DONE_IE) (R43, R191). -/
def State.irqenWord (s : State) : Word :=
  (BitVec.ofBool s.errIe ++ BitVec.ofBool s.doneIe).setWidth 32

/-- The value a register reads as, with the draw counter after the read: only a DIGESTi read while
DONE = 0 draws (R46, R191, log entry 6). -/
def State.regValue (s : State) : Reg → Word × Nat
  | .ctrl => (0#32, s.draws)
  | .status => (s.statusWord, s.draws)
  | .lenLo => (s.len.extractLsb' 0 32, s.draws)
  | .lenHi => (s.len.extractLsb' 32 32, s.draws)
  | .irqen => (s.irqenWord, s.draws)
  | .seq => (s.seq.setWidth 32, s.draws)
  | .nblk => (s.nblk.extractLsb' 0 32, s.draws)
  | .digest i => if s.done then (s.hs[i], s.draws) else (Config.freeWord s.draws, s.draws + 1)
  | .reserved => (0#32, s.draws)

/-- HS[0] ‖ … ‖ HS[7], HS[0] in bits 255:224 (R50). -/
def hashBits (h : Vector Word 8) : BitVec 256 :=
  h[0] ++ h[1] ++ h[2] ++ h[3] ++ h[4] ++ h[5] ++ h[6] ++ h[7]

/-- The digest_out port: unspecified while DONE = 0 (R50, log entry 6). -/
def State.digestOut (s : State) : BitVec 256 :=
  if s.done then hashBits s.hs else Config.freeDigest s.draws

end Sys2Proof.Machine
end

