-- ==== Sys2Proof/Machine/Transactions.lean ====
section
/-! DEFINITION. The host's four transactions (44_host_interface.md R191 to R194). -/

namespace Sys2Proof.Machine

/-- REG_READ addr; data is ignored (R191). -/
def execRegRead (addr _data : Word) (s : State) : Result :=
  match regNamed addr with
  | none => .next s.respondBusErr
  | some r =>
    let v := s.regValue r
    .next ({ s with draws := v.2 }.respondOk v.1)

/-- REG_WRITE addr, data (R192). -/
def execRegWrite (addr data : Word) (s : State) : Result :=
  match regNamed addr with
  | none => .next s.respondBusErr
  | some .ctrl => runCommand data s
  | some .lenLo =>
    if s.busy then .next s.respondBusErr
    else .next ({ s with len := s.len.extractLsb' 32 32 ++ data }.respondOk 0#32)
  | some .lenHi =>
    if s.busy then .next s.respondBusErr
    else .next ({ s with len := data ++ s.len.extractLsb' 0 32 }.respondOk 0#32)
  | some .irqen =>
    .next ({ s with doneIe := data.getLsbD 0, errIe := data.getLsbD 1 }.respondOk 0#32)
  | some .status | some .seq | some .nblk | some (.digest _) | some .reserved =>
    .next (s.respondOk 0#32)

/-- MSG_READ addr; data is ignored (R193). A never-written byte reads as a free byte (R79). -/
def execMsgRead (addr _data : Word) (s : State) : Result :=
  match s.msgIndex addr with
  | none => .next s.respondBusErr
  | some a =>
    if s.busy then .next s.respondBusErr
    else
      let r := s.pb.read a s.draws
      .next ({ s with draws := r.2 }.respondOk (r.1.setWidth 32))

/-- MSG_WRITE addr, data[7:0] (R194). -/
def execMsgWrite (addr data : Word) (s : State) : Result :=
  match s.msgIndex addr with
  | none => .next s.respondBusErr
  | some a =>
    if s.busy then .next s.respondBusErr
    else .next ({ s with pb := s.pb.set a (msgByte data) }.respondOk 0#32)

end Sys2Proof.Machine
end

