-- ==== Sys2Proof/Machine/Dispatch.lean ====
section
/-! DEFINITION. One arm per operation, each one direct call of its meaning. -/

namespace Sys2Proof.Machine

def exec (i : Instr) (s : State) : Host.Outcome State Fault Refusal :=
  match i with
  | .idle => Sys2Proof.Machine.execIdle s
  | .initH => Sys2Proof.Machine.execInitH s
  | .padMark => Sys2Proof.Machine.execPadMark s
  | .padZero => Sys2Proof.Machine.execPadZero s
  | .padLen => Sys2Proof.Machine.execPadLen s
  | .schedLoad t => Sys2Proof.Machine.execSchedLoad t s
  | .schedExp t => Sys2Proof.Machine.execSchedExp t s
  | .wvInit => Sys2Proof.Machine.execWvInit s
  | .round t => Sys2Proof.Machine.execRound t s
  | .accum => Sys2Proof.Machine.execAccum s
  | .blockNext => Sys2Proof.Machine.execBlockNext s
  | .regRead addr data => Sys2Proof.Machine.execRegRead addr data s
  | .regWrite addr data => Sys2Proof.Machine.execRegWrite addr data s
  | .msgRead addr data => Sys2Proof.Machine.execMsgRead addr data s
  | .msgWrite addr data => Sys2Proof.Machine.execMsgWrite addr data s
  | .ctrlSreset reserved start => Sys2Proof.Machine.execCtrlSreset reserved start s
  | .ctrlStart reserved => Sys2Proof.Machine.execCtrlStart reserved s
  | .ctrlNop reserved => Sys2Proof.Machine.execCtrlNop reserved s

end Sys2Proof.Machine
end

