-- ==== Sys2Proof/Machine/Fetch.lean ====
section
/-! DEFINITION. What the next step runs: the turn that is next, and the operation it selects
(43_sequencer.md R170, R179; 44_host_interface.md R190). -/

namespace Sys2Proof.Machine

/-- The next turn: the agenda's head, or `thereafter` once the agenda is empty (log entries 1, 17). -/
def State.nextTurn (s : State) : Turn :=
  match s.agenda with
  | [] => s.thereafter
  | t :: _ => t

/-- The state in which the turn's operation runs: the turn has left the agenda. -/
def State.takeTurn (s : State) : State := { s with agenda := s.agenda.tail }

/-- A state that holds a reserved ERRCODE (93_implementation_defined.md U12) or a reserved UOP word
(30_encoding.md R88, 43_sequencer.md R179) is refused; otherwise the turn runs what `choose` makes
of the sequencer's micro-operation. -/
def State.orRefuse (s : State) (choose : Instr → Instr) : Fetched :=
  if 2 < s.errcode.toNat then .refuse .reservedErrcode
  else
    match decodeUop s.seq with
    | .error _ => .refuse .reservedUop
    | .ok uop => .run (choose uop)

/-- The operation of the next turn. The core has a step exactly when BUSY = 1; a turn given to the
quiescent core passes as IDLE (R170, R172, log entry 2). -/
def fetch (s : State) : Fetched :=
  match s.nextTurn with
  | .core => s.orRefuse fun uop => if s.busy then uop else .idle
  | .request w => s.orRefuse fun _ => decodeHreq w
  | .command w => s.orRefuse fun _ => decodeCtrlw w
  | .powerOn => .powerOn

/-- The state whose next step fetches this UOP word: the sequencer holds it and, unless it is IDLE's,
the block is busy (R170); the core has the next turn. Log entry 13. -/
def State.placeUop (s : State) (w : BitVec 16) : State :=
  { s with
    phase := w.extractLsb' 8 8
    idx := w.extractLsb' 0 8
    busy := s.busy || decide (w ≠ 0#16)
    agenda := .core :: s.agenda }

/-- The state whose next step is this turn. -/
def State.placeTurn (s : State) (t : Turn) : State := { s with agenda := t :: s.agenda }

/-- The state whose next step runs the operation of this opcode-table word, format by width as in
decodeTableWord. -/
def State.placeWord (s : State) (nbits w : Nat) : State :=
  if nbits ≤ 16 then s.placeUop (BitVec.ofNat 16 w)
  else if nbits ≤ 32 then s.placeTurn (.command (BitVec.ofNat 32 w))
  else s.placeTurn (.request (BitVec.ofNat 66 w))

end Sys2Proof.Machine
end

