-- ==== Sys2Proof/Machine/Step.lean ====
section
/-! DEFINITION. One step of the machine: the next turn of the total order (20_memory.md R73) is taken
from the agenda and what it fetches is run. -/

namespace Sys2Proof.Machine

/-- One step of either agent, or the hardware reset. -/
def step (s : State) : Host.Outcome State Fault Refusal :=
  match fetch s with
  | .run i => exec i s.takeTurn
  | .powerOn => .next s.takeTurn.hardReset
  | .refuse r => .refused r

/-- s with the operation of an opcode-table word placed where step fetches next (log entry 13). -/
def State.withFetchWord (s : State) (nbits w : Nat) : State := s.placeWord nbits w

end Sys2Proof.Machine
end

