-- ==== Sys2Proof/Machine/Execution.lean ====
section
/-! DEFINITION. The block under a scheduler: every interleaving of the agents' steps as a schedule
(20_memory.md R73, 93_implementation_defined.md U14), the execution under it, and the fairness
premise core_fair (70_reset_and_hazards.md R252). -/

namespace Sys2Proof.Machine

/-- Which turn comes at each step, for ever. Nothing constrains it: it may starve the core (R252). -/
abbrev Schedule := Nat → Turn

/-- The execution from s under a schedule, after n steps: each step is the scheduled turn's, and reads
the state left by the step before it (R73). The turns come from the schedule, so the states' own
agenda plays no part. -/
def State.under (s : State) (sched : Schedule) : Nat → Result
  | 0 => .next s
  | n + 1 =>
    match s.under sched n with
    | .next t => step (t.placeTurn (sched n))
    | .fault f => .fault f
    | .refused r => .refused r

/-- BUSY = 1 after n steps of the execution. -/
def State.busyUnder (s : State) (sched : Schedule) (n : Nat) : Prop :=
  ∃ t, s.under sched n = .next t ∧ t.busy = true

/-- core_fair, of one execution (R252): if BUSY = 1 from some point on, the core takes a step infinitely
often. -/
def CoreFair (sched : Schedule) (s : State) : Prop :=
  (∃ n, ∀ k, n ≤ k → s.busyUnder sched k) → ∀ n, ∃ k, n ≤ k ∧ sched k = .core

/-- The host's turn of the pseudo-instruction `wait`: a REG_READ of STATUS (30_encoding.md R94). -/
def statusPoll : Turn := .request (hreqWord 0b00#2 0x04#32 0#32)

/-- How many of the first n turns are the core's. -/
def coreTurns (sched : Schedule) (n : Nat) : Nat := ((List.range n).map sched).count .core

end Sys2Proof.Machine
end

