-- ==== Sys2Proof/Machine/Hash.lean ====
section
/-! DEFINITION. The functions the spec defines on whole messages, which the machine computes step by
step: pad (40_padding.md R101), sched (41_schedule.md R123), compress, hash (here hashOf) and digest
(42_compression.md R149 to R151), and the step count (43_sequencer.md R176). -/

namespace Sys2Proof.Machine

/-- pad(M) = M ‖ [0x80] ‖ [0x00] × Z(L) ‖ BE64(bitlen) (R101), with bitlen = 8·L (R100). -/
def pad (m : List Byte) : List Byte :=
  m ++ [0x80#8] ++ List.replicate (zeroCount m.length) 0x00#8 ++
    be64 (BitVec.ofNat 64 (8 * m.length))

/-- The big-endian word t of a block's bytes (R122). -/
def blockWord (block : List Byte) (t : Nat) : Word :=
  block.getD (4 * t) 0#8 ++ block.getD (4 * t + 1) 0#8 ++ block.getD (4 * t + 2) 0#8 ++
    block.getD (4 * t + 3) 0#8

/-- n more words of a schedule whose words so far are ws (R123). -/
def schedExtend : Nat → List Word → List Word
  | 0, ws => ws
  | n + 1, ws =>
    let t := ws.length
    schedExtend n (ws ++ [schedSum (ws.getD (t - 2) 0#32) (ws.getD (t - 7) 0#32)
      (ws.getD (t - 15) 0#32) (ws.getD (t - 16) 0#32)])

/-- sched(B)[0..63] of a block of 64 bytes (R123). -/
def sched (block : List Byte) : List Word := schedExtend 48 ((List.range 16).map (blockWord block))

/-- V_n of R149: the working variables after n rounds from V_0 = h. -/
def roundsOf (ws : List Word) (h : Vector Word 8) : Nat → Vector Word 8
  | 0 => h
  | n + 1 => roundOf (roundsOf ws h n) (kRom.getD n 0#32) (ws.getD n 0#32)

/-- compress(H, B) (R149). -/
def compress (h : Vector Word 8) (block : List Byte) : Vector Word 8 :=
  addWords h (roundsOf (sched block) h 64)

/-- Block b of a padded buffer: its bytes 64b .. 64b+63. -/
def blockOf (p : List Byte) (b : Nat) : List Byte := (p.drop (64 * b)).take 64

/-- H_b of R150: the hash state after b blocks of the padded buffer p. -/
def hashState (p : List Byte) : Nat → Vector Word 8
  | 0 => ivRom
  | b + 1 => compress (hashState p b) (blockOf p b)

/-- The four bytes of a word, most significant first. -/
def be32 (v : Word) : List Byte := (List.range 4).map fun j => v.extractLsb' (24 - 8 * j) 8

/-- digest(H): byte 4i + j is H[i][31-8j : 24-8j] (R151). -/
def digest (h : Vector Word 8) : List Byte := h.toList.flatMap be32

/-- hash(M) (R150). -/
def hashOf (m : List Byte) : List Byte := digest (hashState (pad m) (pbLen m.length / 64))

/-- steps(L) = 3 + Z(L) + 131 · NBLK (R176). -/
def steps (len : Nat) : Nat := 3 + zeroCount len + 131 * (pbLen len / 64)

end Sys2Proof.Machine
end

