-- ==== Sys2Proof/Safety.lean ====
section
/-! DEFINITION. What claims are stated in terms of: the invariant of the block's reachable states
(10_state.md R41, 20_memory.md R67, 43_sequencer.md R174), the host's side of the operations, and the
start of a run. -/

namespace Sys2Proof

/-- The operations the host issues: its four transactions and the three commands. -/
def Instr.isHost : Instr → Bool
  | .regRead _ _ | .regWrite _ _ | .msgRead _ _ | .msgWrite _ _ => true
  | .ctrlSreset _ _ | .ctrlStart _ | .ctrlNop _ => true
  | .idle | .initH | .padMark | .padZero | .padLen | .schedLoad _ | .schedExp _ | .wvInit
  | .round _ | .accum | .blockNext => false

/-- The operation is a soft reset: CTRL_SRESET, or a REG_WRITE to CTRL whose data selects it (R195). -/
def Instr.isSreset : Instr → Bool
  | .ctrlSreset _ _ => true
  | .regWrite addr data => addr == 0#32 && data.getLsbD 1
  | _ => false

/-- The operation is a start: CTRL_START, or a REG_WRITE to CTRL whose data selects it (R195). -/
def Instr.isStart : Instr → Bool
  | .ctrlStart _ => true
  | .regWrite addr data => addr == 0#32 && !data.getLsbD 1 && data.getLsbD 0
  | _ => false

end Sys2Proof

namespace Sys2Proof.Machine

/-- PB lists only indexes below n. -/
abbrev Memory.Below (m : Memory) (n : Nat) : Prop := ∀ c ∈ m, c.1 < n

/-- PB is in canonical form and holds no index outside 0 .. PB_BYTES-1 (R60). -/
abbrev State.MemOk (s : State) : Prop := s.pb.wf = true ∧ s.pb.Below s.pbBytes

/-- The invariants of R41, with ERRCODE one of the three codes that are produced. -/
abbrev State.StatusOk (s : State) : Prop :=
  (s.busy = true → s.done = false ∧ s.err = false) ∧
  ¬(s.done = true ∧ s.err = true) ∧
  (s.err = true ↔ s.errcode ≠ 0#4) ∧
  (s.busy = false ↔ s.phase = Phase.idle) ∧
  s.errcode.toNat ≤ 2

/-- (phase, idx) selects a row of R82 (R35, R174). -/
abbrev State.SeqOk (s : State) : Prop := (decodeUop s.seq).toOption.isSome = true

/-- NBLK never counts more blocks than PB holds, so NBLK ≤ 2^26 (R37). -/
abbrev State.CountOk (s : State) : Prop := 64 * s.nblk.toNat ≤ s.pbBytes

/-- A response with err = 1 carries rdata 0 (30_encoding.md R84). -/
abbrev State.RespOk (s : State) : Prop :=
  ∀ r ∈ s.hresp, r.err = true → r.rdata = 0#32

/-- The phases in which the blocks are processed. -/
abbrev State.inBlocks (s : State) : Prop :=
  s.phase ∈ [Phase.schedLoad, Phase.schedExp, Phase.wvInit, Phase.round, Phase.accum,
    Phase.blockNext]

/-- Where a run stands: the length passed the checks of START (60_exceptions.md R220, R221), and PTR,
blk and NBLK are where the phase has brought them (40_padding.md R104 to R107, R173). -/
abbrev State.RunOk (s : State) : Prop :=
  s.len.toNat < 2 ^ 61 ∧ pbLen s.len.toNat ≤ s.pbBytes ∧
  (s.phase = Phase.initH → s.ptr = s.len ∧ s.blk = 0#64) ∧
  (s.phase = Phase.padMark → s.ptr = s.len ∧ s.blk = 0#64) ∧
  (s.phase = Phase.padZero →
    s.len.toNat < s.ptr.toNat ∧ s.ptr.toNat + 8 < pbLen s.len.toNat ∧ s.blk = 0#64) ∧
  (s.phase = Phase.padLen → s.ptr.toNat + 8 = pbLen s.len.toNat ∧ s.blk = 0#64) ∧
  (s.inBlocks → 64 * s.nblk.toNat = pbLen s.len.toNat ∧ s.blk.toNat < s.nblk.toNat)

/-- The invariant: it holds at reset and every step keeps it. -/
abbrev State.Inv (s : State) : Prop :=
  s.MemOk ∧ s.StatusOk ∧ s.SeqOk ∧ s.CountOk ∧ s.RespOk ∧ (s.busy = true → s.RunOk)

/-- A state in which a turn runs an operation: no reserved code is held (30_encoding.md R88, 93 U12). -/
abbrev State.Admits (s : State) : Prop := s.errcode.toNat ≤ 2 ∧ s.SeqOk

/-- A turn that is no reset: a core step, or a host operation other than a soft reset
(43_sequencer.md R178: only CTRL_SRESET can interfere with a run). -/
def Turn.harmless : Turn → Bool
  | .core => true
  | .request w => !(decodeHreq w).isSreset
  | .command w => !(decodeCtrlw w).isSreset
  | .powerOn => false

/-- The core is the only agent from here on. -/
abbrev State.CoreOnly (s : State) : Prop := s.agenda = [] ∧ s.thereafter = .core

/-- A busy state at a given point of the sequencer, whose further turns are all the core's. -/
abbrev State.CoreAt (s : State) (phase idx : BitVec 8) : Prop :=
  s.CoreOnly ∧ s.busy = true ∧ s.errcode.toNat ≤ 2 ∧ s.phase = phase ∧ s.idx = idx

/-- The length of the run passes both checks of START (R220, R221). -/
abbrev State.LengthFits (s : State) : Prop :=
  s.len.toNat < 2 ^ 61 ∧ pbLen s.len.toNat ≤ s.pbBytes

/-- PB holds the message m at 0 .. L-1, every byte of it written. -/
abbrev State.HoldsMessage (s : State) (m : List Byte) : Prop :=
  m.length = s.len.toNat ∧ ∀ p, p < m.length → s.pb.byteAt p = m[p]?

/-- The 64 bytes of block blk are written and are these. -/
abbrev State.HoldsBlock (s : State) (block : List Byte) : Prop :=
  block.length = 64 ∧ 64 * s.blk.toNat + 64 ≤ s.pbBytes ∧
  ∀ j, j < 64 → s.pb.byteAt (64 * s.blk.toNat + j) = block[j]?

end Sys2Proof.Machine
end

