-- ==== Sys2Proof/Certificates/Slice0/Obligations.lean ====
section
/-! DEFINITION. The statements for the provers, from the spec's numbered rules. "t = { s with … }" is
each statement's frame: every field not named there, flags, special registers, PB and the model's own
fields included, is as it was. -/

open Sys2Proof Sys2Proof.Machine

/-! ## Encoding -/

/-- R82, R83, R85: no bit of an operation is lost in its word. -/
def Obligations.DecodeInvertsEncode : Prop :=
  ∀ i : Instr, i.WellFormed → decode (encode i) = .ok i

/-- R95: every UOP word is an operation or reserved, every HREQ is one of the four kinds and every
CTRLW one of the three commands; with R82, R83, R85: a word that decodes is the encoding of the
operation it gives, which is well formed. -/
def Obligations.EncodeInvertsDecode : Prop :=
  (∀ w, (∃ i, decode (.uop w) = .ok i) ∨ decode (.uop w) = .error (.reservedUop w)) ∧
  (∀ w, ∃ addr data, decode (.hreq w) ∈ [.ok (.regRead addr data), .ok (.regWrite addr data),
    .ok (.msgRead addr data), .ok (.msgWrite addr data)]) ∧
  (∀ w, ∃ r b, decode (.ctrlw w) ∈ [.ok (.ctrlSreset r b), .ok (.ctrlStart r), .ok (.ctrlNop r)]) ∧
  (∀ c i, decode c = .ok i → i.WellFormed ∧ encode i = c)

/-- R82: the opcode map, one clause per row; no two rows select the same word, since the decoder
answers one operation. -/
def Obligations.OpcodeMapSelectsRows : Prop :=
  ∀ w : BitVec 16,
    (decodeUop w = .ok .idle ↔ w &&& 0xFFFF#16 = 0x0000#16) ∧
    (decodeUop w = .ok .initH ↔ w &&& 0xFFFF#16 = 0x0100#16) ∧
    (decodeUop w = .ok .padMark ↔ w &&& 0xFFFF#16 = 0x0200#16) ∧
    (decodeUop w = .ok .padZero ↔ w &&& 0xFFFF#16 = 0x0300#16) ∧
    (decodeUop w = .ok .padLen ↔ w &&& 0xFFFF#16 = 0x0400#16) ∧
    (∀ t, decodeUop w = .ok (.schedLoad t) ↔
      w &&& 0xFFF0#16 = 0x0500#16 ∧ t = (w.extractLsb' 0 4).setWidth 8) ∧
    (∀ t, decodeUop w = .ok (.schedExp t) ↔
      w &&& 0xFFC0#16 = 0x0600#16 ∧ 16 ≤ t.toNat ∧ t = (w.extractLsb' 0 6).setWidth 8) ∧
    (decodeUop w = .ok .wvInit ↔ w &&& 0xFFFF#16 = 0x0700#16) ∧
    (∀ t, decodeUop w = .ok (.round t) ↔
      w &&& 0xFFC0#16 = 0x0800#16 ∧ t = (w.extractLsb' 0 6).setWidth 8) ∧
    (decodeUop w = .ok .accum ↔ w &&& 0xFFFF#16 = 0x0900#16) ∧
    (decodeUop w = .ok .blockNext ↔ w &&& 0xFFFF#16 = 0x0A00#16)

/-- R88: the reserved UOP words, by phase and idx. -/
def Obligations.ReservedUopWordsRejected : Prop :=
  ∀ phase idx : BitVec 8,
    (decodeUop (phase ++ idx) = .error (.reservedUop (phase ++ idx))) ↔
      (0x0B ≤ phase.toNat ∨
       (phase ∈ [Phase.idle, Phase.initH, Phase.padMark, Phase.padZero, Phase.padLen, Phase.wvInit,
          Phase.accum, Phase.blockNext] ∧ idx ≠ 0#8) ∨
       (phase = Phase.schedLoad ∧ 16 ≤ idx.toNat) ∨
       (phase = Phase.schedExp ∧ (idx.toNat < 16 ∨ 64 ≤ idx.toNat)) ∨
       (phase = Phase.round ∧ 64 ≤ idx.toNat))

/-- R83: the fields of an HREQ, and the data bits that are ignored: all of them by the reads,
data[31:8] by MSG_WRITE. -/
def Obligations.HostRequestFields : Prop :=
  (∀ addr data : Word,
    decodeHreq (0b00#2 ++ addr ++ data) = .regRead addr data ∧
    decodeHreq (0b01#2 ++ addr ++ data) = .regWrite addr data ∧
    decodeHreq (0b10#2 ++ addr ++ data) = .msgRead addr data ∧
    decodeHreq (0b11#2 ++ addr ++ data) = .msgWrite addr data) ∧
  (∀ (addr d d' : Word) (s : State),
    exec (.regRead addr d) s = exec (.regRead addr d') s ∧
    exec (.msgRead addr d) s = exec (.msgRead addr d') s) ∧
  (∀ (addr d d' : Word) (s : State), d.extractLsb' 0 8 = d'.extractLsb' 0 8 →
    exec (.msgWrite addr d) s = exec (.msgWrite addr d') s)

/-- A few words written out from the encoding lines of R104, R124, R125, R147, R83 and R85. -/
def Obligations.SampleWordsDecode : Prop :=
  decodeTableWord 16 0x0200 = some .padMark ∧
  decodeTableWord 16 0x050F = some (.schedLoad 15#8) ∧
  decodeTableWord 16 0x0610 = some (.schedExp 16#8) ∧
  decodeTableWord 16 0x060F = none ∧
  decodeTableWord 16 0x083F = some (.round 63#8) ∧
  decodeTableWord 16 0x0840 = none ∧
  decodeTableWord 72 0x10000000800000003 = some (.regWrite 0x08#32 0x03#32) ∧
  decodeTableWord 72 0x3000000370000009F = some (.msgWrite 0x37#32 0x9F#32) ∧
  decodeTableWord 32 0x3 = some (.ctrlSreset 0#30 1#1) ∧
  decodeTableWord 32 0x1 = some (.ctrlStart 0#30)

/-! ## Datapath functions -/

/-- R11: bit i of rotr(x, n) is bit (i + n) mod 32 of x, and the formula. -/
def Obligations.RotationMovesBits : Prop :=
  ∀ (x : Word) (n : Nat), 0 < n → n < 32 →
    rotr x n = (x >>> n) ||| (x <<< (32 - n)) ∧
    ∀ i, i < 32 → (rotr x n).getLsbD i = x.getLsbD ((i + n) % 32)

/-- R142, R143: Ch chooses and Maj takes the majority, bit by bit. -/
def Obligations.ChooseAndMajorityBitwise : Prop :=
  ∀ (x y z : Word) (i : Nat),
    (ch x y z).getLsbD i = (if x.getLsbD i then y.getLsbD i else z.getLsbD i) ∧
    (maj x y z).getLsbD i =
      decide (2 ≤ (x.getLsbD i).toNat + (y.getLsbD i).toNat + (z.getLsbD i).toNat)

/-- R120, R121, R140, R141: bit i of each sigma function is the xor of three bits of x (two of them,
where the shift of σ0 or σ1 has filled with zero). -/
def Obligations.SigmaFunctionsBitwise : Prop :=
  ∀ (x : Word) (i : Nat), i < 32 →
    let rot n := x.getLsbD ((i + n) % 32)
    let shr n := x.getLsbD (i + n)
    (smallSigma0 x).getLsbD i = ((rot 7 ^^ rot 18) ^^ shr 3) ∧
    (smallSigma1 x).getLsbD i = ((rot 17 ^^ rot 19) ^^ shr 10) ∧
    (bigSigma0 x).getLsbD i = ((rot 2 ^^ rot 13) ^^ rot 22) ∧
    (bigSigma1 x).getLsbD i = ((rot 6 ^^ rot 11) ^^ rot 25)

/-- R101, R102: the padded buffer's closed forms, that Z(L) is the least zero count, that PBLEN(L) is
the least multiple of 64 at or above L + 9, and the bytes of pad(M) by index. -/
def Obligations.PaddingClosedForms : Prop :=
  (∀ n : Nat,
    (zeroCount n : Int) = (55 - (n : Int)) % 64 ∧ zeroCount n < 64 ∧
    (n + 1 + zeroCount n) % 64 = 56 ∧
    (∀ z, (n + 1 + z) % 64 = 56 → zeroCount n ≤ z) ∧
    pbLen n = n + 1 + zeroCount n + 8 ∧
    pbLen n = 64 * ((n + 8) / 64 + 1) ∧
    n + 9 ≤ pbLen n ∧ pbLen n % 64 = 0 ∧
    (∀ k, k % 64 = 0 → n + 9 ≤ k → pbLen n ≤ k) ∧
    pbLen n / 64 = (n + 8) / 64 + 1) ∧
  (∀ m : List Byte,
    let n := m.length
    (pad m).length = pbLen n ∧
    (∀ p, p < n → (pad m)[p]? = m[p]?) ∧
    (pad m)[n]? = some 0x80#8 ∧
    (∀ p, n < p → p < pbLen n - 8 → (pad m)[p]? = some 0x00#8) ∧
    (∀ j, j < 8 → (pad m)[pbLen n - 8 + j]? =
      some ((BitVec.ofNat 64 (8 * n)).extractLsb' (56 - 8 * j) 8)))

/-- R151: digest(H)[4i + j] = H[i][31-8j : 24-8j]. -/
def Obligations.DigestIsBigEndian : Prop :=
  ∀ h : Vector Word 8,
    (digest h).length = 32 ∧
    ∀ (i j : Nat) (_ : i < 8), j < 4 → (digest h)[4 * i + j]? = some (h[i].extractLsb' (24 - 8 * j) 8)

/-- R50, R151: while DONE = 1, digest_out read from bit 255 down, a byte at a time, is the digest. -/
def Obligations.DigestPortReadsDigest : Prop :=
  ∀ s : State, s.done = true →
    ∀ k, k < 32 → some (s.digestOut.extractLsb' (248 - 8 * k) 8) = (digest s.hs)[k]?

/-! ## The padding unit -/

/-- R104: PAD_MARK, where PTR is an index of PB. -/
def Obligations.PadMarkAppendsMarker : Prop :=
  decodeUop 0x0200#16 = .ok .padMark ∧
  ∀ s : State, s.ptr.toNat < s.pbBytes →
    ∃ t, exec .padMark s = .next t ∧
      t = { s with
        pb := t.pb
        ptr := s.ptr + 1#64
        phase := if (s.ptr.toNat + 1) % 64 = 56 then Phase.padLen else Phase.padZero
        idx := 0#8 } ∧
      t.pb.byteAt s.ptr.toNat = some 0x80#8 ∧
      ∀ a, a ≠ s.ptr.toNat → t.pb.byteAt a = s.pb.byteAt a

/-- R105: PAD_ZERO, where PTR is an index of PB. -/
def Obligations.PadZeroAppendsZero : Prop :=
  decodeUop 0x0300#16 = .ok .padZero ∧
  ∀ s : State, s.ptr.toNat < s.pbBytes →
    ∃ t, exec .padZero s = .next t ∧
      t = { s with
        pb := t.pb
        ptr := s.ptr + 1#64
        phase := if (s.ptr.toNat + 1) % 64 = 56 then Phase.padLen else Phase.padZero
        idx := 0#8 } ∧
      t.pb.byteAt s.ptr.toNat = some 0x00#8 ∧
      ∀ a, a ≠ s.ptr.toNat → t.pb.byteAt a = s.pb.byteAt a

/-- R106: PAD_LEN, where the eight bytes at PTR lie in PB: byte j of the 64-bit value 8·L, most
significant first, goes to PB[PTR + j]. -/
def Obligations.PadLenAppendsBitLength : Prop :=
  decodeUop 0x0400#16 = .ok .padLen ∧
  ∀ s : State, s.ptr.toNat + 8 ≤ s.pbBytes →
    ∃ t, exec .padLen s = .next t ∧
      t = { s with
        pb := t.pb
        nblk := BitVec.ofNat 64 ((s.ptr.toNat + 8) / 64)
        ptr := s.ptr + 8#64
        phase := Phase.schedLoad
        idx := 0#8 } ∧
      (∀ j, j < 8 → t.pb.byteAt (s.ptr.toNat + j) =
        some ((BitVec.ofNat 64 (8 * s.len.toNat)).extractLsb' (56 - 8 * j) 8)) ∧
      ∀ a, (a < s.ptr.toNat ∨ s.ptr.toNat + 8 ≤ a) → t.pb.byteAt a = s.pb.byteAt a

/-- R107: from (PAD_MARK, 0) with PTR = L, the padding unit takes 2 + Z(L) core steps and leaves
PB[L .. PBLEN(L)-1] as pad(M) has it, PTR = PBLEN(L), NBLK = PBLEN(L)/64, and everything else as it
was, PB outside L .. PBLEN(L)-1 included. -/
def Obligations.PaddingUnitPadsBuffer : Prop :=
  ∀ s : State, s.CoreAt Phase.padMark 0#8 → s.LengthFits → s.ptr = s.len →
    ∃ t, Host.Core.run Sys2Proof.core (2 + zeroCount s.len.toNat) s = .next t ∧
      t = { s with
        pb := t.pb
        ptr := BitVec.ofNat 64 (pbLen s.len.toNat)
        nblk := BitVec.ofNat 64 (pbLen s.len.toNat / 64)
        phase := Phase.schedLoad
        idx := 0#8 } ∧
      (∀ m : List Byte, m.length = s.len.toNat →
        ∀ p, s.len.toNat ≤ p → p < pbLen s.len.toNat → t.pb.byteAt p = (pad m)[p]?) ∧
      ∀ p, (p < s.len.toNat ∨ pbLen s.len.toNat ≤ p) → t.pb.byteAt p = s.pb.byteAt p

/-! ## The message schedule expander -/

/-- R124, R79: SCHED_LOAD t loads W[t] big-endian from the block; each byte that was ever written
supplies its eight bits, a never-written one leaves them free; no draw is made when all four were
written. -/
def Obligations.SchedLoadReadsBlockWord : Prop :=
  (∀ t : BitVec 8, t.toNat < 16 → decodeUop (0x0500#16 + t.setWidth 16) = .ok (.schedLoad t)) ∧
  ∀ (s : State) (t : BitVec 8) (_ : t.toNat < 16),
    64 * s.blk.toNat + 4 * t.toNat + 4 ≤ s.pbBytes →
    ∃ u, exec (.schedLoad t) s = .next u ∧
      u = { s with
        w := u.w
        draws := u.draws
        phase := if t.toNat < 15 then Phase.schedLoad else Phase.schedExp
        idx := if t.toNat < 15 then t + 1#8 else 16#8 } ∧
      (∀ (j : Nat) (_ : j < 64), j ≠ t.toNat → u.w[j] = s.w[j]) ∧
      (∀ j, j < 4 → ∀ b, s.pb.byteAt (64 * s.blk.toNat + 4 * t.toNat + j) = some b →
        u.w[t.toNat].extractLsb' (24 - 8 * j) 8 = b) ∧
      ((∀ j, j < 4 → s.pb.byteAt (64 * s.blk.toNat + 4 * t.toNat + j) ≠ none) → u.draws = s.draws)

/-- R125: SCHED_EXP t, every addition modulo 2^32. -/
def Obligations.SchedExpFollowsRecurrence : Prop :=
  (∀ t : BitVec 8, 16 ≤ t.toNat → t.toNat < 64 →
    decodeUop (0x0600#16 + t.setWidth 16) = .ok (.schedExp t)) ∧
  ∀ (s : State) (t : BitVec 8) (_ : 16 ≤ t.toNat) (_ : t.toNat < 64),
    ∃ u, exec (.schedExp t) s = .next u ∧
      u = { s with
        w := u.w
        phase := if t.toNat < 63 then Phase.schedExp else Phase.wvInit
        idx := if t.toNat < 63 then t + 1#8 else 0#8 } ∧
      u.w[t.toNat] = BitVec.ofNat 32
        ((smallSigma1 s.w[t.toNat - 2]).toNat + s.w[t.toNat - 7].toNat +
          (smallSigma0 s.w[t.toNat - 15]).toNat + s.w[t.toNat - 16].toNat) ∧
      ∀ (j : Nat) (_ : j < 64), j ≠ t.toNat → u.w[j] = s.w[j]

/-- R126: over a block whose bytes are all written, the 64 steps of the expander fill W with
sched(block) and change nothing else. -/
def Obligations.ExpanderFillsSchedule : Prop :=
  ∀ (s : State) (block : List Byte), s.CoreAt Phase.schedLoad 0#8 → s.HoldsBlock block →
    ∃ t, Host.Core.run Sys2Proof.core 64 s = .next t ∧
      t = { s with w := t.w, phase := Phase.wvInit, idx := 0#8 } ∧
      t.w.toList = sched block

/-! ## The compression engine -/

/-- R144, R49: INIT_H loads the eight initial hash values. -/
def Obligations.InitHLoadsInitialValues : Prop :=
  decodeUop 0x0100#16 = .ok .initH ∧
  ∀ s : State, exec .initH s = .next { s with
    hs := #v[0x6a09e667#32, 0xbb67ae85#32, 0x3c6ef372#32, 0xa54ff53a#32,
      0x510e527f#32, 0x9b05688c#32, 0x1f83d9ab#32, 0x5be0cd19#32]
    phase := Phase.padMark
    idx := 0#8 }

/-- R145: WV_INIT copies the hash state. -/
def Obligations.WvInitCopiesHashState : Prop :=
  decodeUop 0x0700#16 = .ok .wvInit ∧
  ∀ s : State, exec .wvInit s = .next { s with wv := s.hs, phase := Phase.round, idx := 0#8 }

/-- R146, R147, with the table K written out from R48: ROUND t; T1 and T2 are plain sums reduced modulo
2^32 once (R10), and all eight variables are computed from the values before the round (R14). -/
def Obligations.RoundUpdatesWorkingVariables : Prop :=
  (∀ t : BitVec 8, t.toNat < 64 → decodeUop (0x0800#16 + t.setWidth 16) = .ok (.round t)) ∧
  kRom.toList =
      [0x428a2f98#32, 0x71374491#32, 0xb5c0fbcf#32, 0xe9b5dba5#32,
       0x3956c25b#32, 0x59f111f1#32, 0x923f82a4#32, 0xab1c5ed5#32,
       0xd807aa98#32, 0x12835b01#32, 0x243185be#32, 0x550c7dc3#32,
       0x72be5d74#32, 0x80deb1fe#32, 0x9bdc06a7#32, 0xc19bf174#32] ++
      [0xe49b69c1#32, 0xefbe4786#32, 0x0fc19dc6#32, 0x240ca1cc#32,
       0x2de92c6f#32, 0x4a7484aa#32, 0x5cb0a9dc#32, 0x76f988da#32,
       0x983e5152#32, 0xa831c66d#32, 0xb00327c8#32, 0xbf597fc7#32,
       0xc6e00bf3#32, 0xd5a79147#32, 0x06ca6351#32, 0x14292967#32] ++
      [0x27b70a85#32, 0x2e1b2138#32, 0x4d2c6dfc#32, 0x53380d13#32,
       0x650a7354#32, 0x766a0abb#32, 0x81c2c92e#32, 0x92722c85#32,
       0xa2bfe8a1#32, 0xa81a664b#32, 0xc24b8b70#32, 0xc76c51a3#32,
       0xd192e819#32, 0xd6990624#32, 0xf40e3585#32, 0x106aa070#32] ++
      [0x19a4c116#32, 0x1e376c08#32, 0x2748774c#32, 0x34b0bcb5#32,
       0x391c0cb3#32, 0x4ed8aa4a#32, 0x5b9cca4f#32, 0x682e6ff3#32,
       0x748f82ee#32, 0x78a5636f#32, 0x84c87814#32, 0x8cc70208#32,
       0x90befffa#32, 0xa4506ceb#32, 0xbef9a3f7#32, 0xc67178f2#32] ∧
  ∀ (s : State) (t : BitVec 8) (_ : t.toNat < 64),
    let t1 : Word := BitVec.ofNat 32 (s.wv[7].toNat + (bigSigma1 s.wv[4]).toNat +
      (ch s.wv[4] s.wv[5] s.wv[6]).toNat + kRom[t.toNat].toNat + s.w[t.toNat].toNat)
    let t2 : Word := BitVec.ofNat 32
      ((bigSigma0 s.wv[0]).toNat + (maj s.wv[0] s.wv[1] s.wv[2]).toNat)
    ∃ u, exec (.round t) s = .next u ∧
      u = { s with
        wv := u.wv
        phase := if t.toNat < 63 then Phase.round else Phase.accum
        idx := if t.toNat < 63 then t + 1#8 else 0#8 } ∧
      u.wv[0] = t1 + t2 ∧ u.wv[1] = s.wv[0] ∧ u.wv[2] = s.wv[1] ∧ u.wv[3] = s.wv[2] ∧
      u.wv[4] = s.wv[3] + t1 ∧ u.wv[5] = s.wv[4] ∧ u.wv[6] = s.wv[5] ∧ u.wv[7] = s.wv[6]

/-- R148: ACCUM adds the working variables into the hash state, each word on its own modulo 2^32. -/
def Obligations.AccumAddsIntoHashState : Prop :=
  decodeUop 0x0900#16 = .ok .accum ∧
  ∀ s : State, ∃ u, exec .accum s = .next u ∧
    u = { s with hs := u.hs, phase := Phase.blockNext, idx := 0#8 } ∧
    ∀ (i : Nat) (_ : i < 8), u.hs[i] = BitVec.ofNat 32 (s.hs[i].toNat + s.wv[i].toNat)

/-- R149: a block whose bytes are all written is compressed into the hash state in 130 core steps,
from (SCHED_LOAD, 0) to (BLOCK_NEXT, 0). -/
def Obligations.BlockStepsCompress : Prop :=
  ∀ (s : State) (block : List Byte), s.CoreAt Phase.schedLoad 0#8 → s.HoldsBlock block →
    ∃ t, Host.Core.run Sys2Proof.core 130 s = .next t ∧
      t = { s with hs := t.hs, wv := t.wv, w := t.w, phase := Phase.blockNext, idx := 0#8 } ∧
      t.hs = compress s.hs block

/-! ## The sequencer -/

/-- R172: IDLE changes nothing; R170: while BUSY = 0 a turn of the core changes nothing either. -/
def Obligations.IdleCoreIsQuiescent : Prop :=
  (∀ s : State, exec .idle s = .next s) ∧
  ∀ s : State, s.Admits → s.busy = false → s.nextTurn = .core → step s = .next s.takeTurn

/-- R173: BLOCK_NEXT. blk + 1 is compared as a number; below 2^64 - 1 it does not wrap. -/
def Obligations.BlockNextAdvancesOrFinishes : Prop :=
  decodeUop 0x0A00#16 = .ok .blockNext ∧
  ∀ s : State, s.blk.toNat + 1 < 2 ^ 64 →
    (s.blk.toNat + 1 < s.nblk.toNat →
      exec .blockNext s = .next { s with
        blk := s.blk + 1#64, phase := Phase.schedLoad, idx := 0#8 }) ∧
    (s.nblk.toNat ≤ s.blk.toNat + 1 →
      exec .blockNext s = .next { s with
        blk := s.blk + 1#64, busy := false, done := true, phase := Phase.idle, idx := 0#8 })

/-- R38: the sequencer state changes only by core operations, an accepted START (idle, with a length
that passes both checks) and a soft reset. -/
def Obligations.SequencerChangesOnlyBy : Prop :=
  ∀ (i : Instr) (s t : State), exec i s = .next t → (t.phase ≠ s.phase ∨ t.idx ≠ s.idx) →
    i.isHost = false ∨ i.isSreset = true ∨
      (i.isStart = true ∧ s.busy = false ∧ s.LengthFits)

/-- R176, R178, R150: an accepted run over a message whose bytes are all written takes exactly
steps(L) core steps, is busy until then, and ends with DONE only, NBLK = PBLEN(L)/64, the padded
message in PB, and HS holding the hash of the message. -/
def Obligations.RunComputesHash : Prop :=
  ∀ (s : State) (m : List Byte), s.CoreAt Phase.initH 0#8 → s.StatusOk → s.LengthFits →
    s.ptr = s.len → s.blk = 0#64 → s.HoldsMessage m →
    (∀ k, k < steps m.length →
      ∃ u, Host.Core.run Sys2Proof.core k s = .next u ∧ u.busy = true) ∧
    ∃ t, Host.Core.run Sys2Proof.core (steps m.length) s = .next t ∧
      t.busy = false ∧ t.done = true ∧ t.err = false ∧ t.errcode = 0#4 ∧
      t.nblk.toNat = pbLen m.length / 64 ∧
      t.hs = hashState (pad m) (pbLen m.length / 64) ∧ digest t.hs = hashOf m ∧
      (∀ p, p < pbLen m.length → t.pb.byteAt p = (pad m)[p]?) ∧
      ∀ p, pbLen m.length ≤ p → t.pb.byteAt p = s.pb.byteAt p

/-- R178, R73, R77: the same for every interleaving (as an agenda, log entry 1; command turns, log
entry 9). The turns still to come are any mix of core steps and host operations without a soft
reset, the last one the core's, with steps(L) core steps in all: they end the run with the hash of
the message PB held at its start, whatever the host did meanwhile.

R252: every execution under an unending schedule of such turns, if it is core_fair, comes to a point
where the run ends so, busy until then, after exactly steps(L) core steps; and where the host only
polls STATUS (`wait`), and does so infinitely often, some poll reads BUSY = 0. -/
def Obligations.RunSurvivesInterleaving : Prop :=
  let begins (s : State) (m : List Byte) : Prop :=
    s.busy = true ∧ s.phase = Phase.initH ∧ s.idx = 0#8 ∧ s.StatusOk ∧ s.LengthFits ∧
    s.ptr = s.len ∧ s.blk = 0#64 ∧ s.HoldsMessage m
  let ends (s t : State) (m : List Byte) : Prop :=
    t.busy = false ∧ t.done = true ∧ t.err = false ∧ t.errcode = 0#4 ∧ t.len = s.len ∧
    t.nblk.toNat = pbLen m.length / 64 ∧
    t.hs = hashState (pad m) (pbLen m.length / 64) ∧ digest t.hs = hashOf m
  (∀ (s : State) (m : List Byte) (turns : List Turn), s.agenda = turns ++ [.core] →
    (∀ u ∈ turns, u.harmless = true) → turns.count .core + 1 = steps m.length → begins s m →
    ∃ t, Host.Core.run Sys2Proof.core (turns.length + 1) s = .next t ∧ t.agenda = [] ∧ ends s t m) ∧
  ∀ (s : State) (m : List Byte) (sched : Schedule), begins s m → CoreFair sched s →
    ((∀ n, (sched n).harmless = true) →
      ∃ n t, s.under sched n = .next t ∧ ends s t m ∧ coreTurns sched n = steps m.length ∧
        ∀ k, k < n → s.busyUnder sched k) ∧
    ((∀ n, sched n = .core ∨ sched n = statusPoll) → (∀ n, ∃ k, n ≤ k ∧ sched k = statusPoll) →
      ∃ n t v, sched n = statusPoll ∧ s.under sched (n + 1) = .next t ∧
        t.hresp = some ⟨false, v⟩ ∧ v.getLsbD 0 = false)

/-- R175: what HS, WV and W held before a run has no part in it, written message or not: the runs
end in the same state. -/
def Obligations.RunIgnoresOldRegisters : Prop :=
  ∀ (s : State) (hs wv : Vector Word 8) (w : Vector Word 64),
    s.CoreAt Phase.initH 0#8 → s.LengthFits → s.ptr = s.len → s.blk = 0#64 →
    ∃ t, Host.Core.run Sys2Proof.core (steps s.len.toNat) s = .next t ∧
      Host.Core.run Sys2Proof.core (steps s.len.toNat) { s with hs := hs, wv := wv, w := w } = .next t

/-! ## The host interface -/

/-- R191 with R41, R43, R44, R45: every register but DIGESTi, at its offset; reads change nothing but
the response. -/
def Obligations.RegReadReturnsRegister : Prop :=
  ∀ (s : State) (data : Word),
    exec (.regRead 0x00#32 data) s = .next { s with hresp := some ⟨false, 0#32⟩ } ∧
    (∃ v : Word, exec (.regRead 0x04#32 data) s = .next { s with hresp := some ⟨false, v⟩ } ∧
      v.getLsbD 0 = s.busy ∧ v.getLsbD 1 = s.done ∧ v.getLsbD 2 = s.err ∧ v.getLsbD 3 = false ∧
      v.extractLsb' 4 4 = s.errcode ∧
      v.getLsbD 8 = ((s.done && s.doneIe) || (s.err && s.errIe)) ∧
      v.extractLsb' 9 23 = 0#23) ∧
    exec (.regRead 0x08#32 data) s =
      .next { s with hresp := some ⟨false, BitVec.ofNat 32 (s.len.toNat % 2 ^ 32)⟩ } ∧
    exec (.regRead 0x0C#32 data) s =
      .next { s with hresp := some ⟨false, BitVec.ofNat 32 (s.len.toNat / 2 ^ 32)⟩ } ∧
    (∃ v : Word, exec (.regRead 0x10#32 data) s = .next { s with hresp := some ⟨false, v⟩ } ∧
      v.getLsbD 0 = s.doneIe ∧ v.getLsbD 1 = s.errIe ∧ v.extractLsb' 2 30 = 0#30) ∧
    (∃ v : Word, exec (.regRead 0x14#32 data) s = .next { s with hresp := some ⟨false, v⟩ } ∧
      v.extractLsb' 0 8 = s.idx ∧ v.extractLsb' 8 8 = s.phase ∧ v.extractLsb' 16 16 = 0#16) ∧
    exec (.regRead 0x18#32 data) s =
      .next { s with hresp := some ⟨false, BitVec.ofNat 32 s.nblk.toNat⟩ }

/-- R46, R191: DIGESTi reads HS[i] while DONE = 1, with no other effect; while DONE = 0 it is
answered OK with some value, and only the model's draw counter moves beside the response. -/
def Obligations.DigestReadsHashState : Prop :=
  ∀ (s : State) (data : Word) (i : Nat) (_ : i < 8),
    (s.done = true → exec (.regRead (BitVec.ofNat 32 (0x20 + 4 * i)) data) s =
      .next { s with hresp := some ⟨false, s.hs[i]⟩ }) ∧
    (s.done = false → ∃ v t, exec (.regRead (BitVec.ofNat 32 (0x20 + 4 * i)) data) s = .next t ∧
      t = { s with hresp := some ⟨false, v⟩, draws := t.draws })

/-- R47, R70: reserved offsets read 0 and ignore writes; writes to the read-only registers are
ignored; all with an OK response. -/
def Obligations.ReservedAndReadOnlyOffsets : Prop :=
  ∀ (s : State) (data : Word) (off : Nat), off < 0x100 → off % 4 = 0 →
    ((off = 0x1C ∨ 0x40 ≤ off) → exec (.regRead (BitVec.ofNat 32 off) data) s =
      .next { s with hresp := some ⟨false, 0#32⟩ }) ∧
    (off ∉ [0x00, 0x08, 0x0C, 0x10] → exec (.regWrite (BitVec.ofNat 32 off) data) s =
      .next { s with hresp := some ⟨false, 0#32⟩ })

/-- R192, R42, R43: the writable registers. -/
def Obligations.RegWriteWritesRegister : Prop :=
  ∀ (s : State) (data : Word),
    (s.busy = false →
      exec (.regWrite 0x08#32 data) s = .next { s with
        len := BitVec.ofNat 64 (s.len.toNat / 2 ^ 32 * 2 ^ 32 + data.toNat)
        hresp := some ⟨false, 0#32⟩ } ∧
      exec (.regWrite 0x0C#32 data) s = .next { s with
        len := BitVec.ofNat 64 (data.toNat * 2 ^ 32 + s.len.toNat % 2 ^ 32)
        hresp := some ⟨false, 0#32⟩ }) ∧
    exec (.regWrite 0x10#32 data) s = .next { s with
      doneIe := data.getLsbD 0
      errIe := data.getLsbD 1
      hresp := some ⟨false, 0#32⟩ }

/-- R195: a write to CTRL executes exactly the command its data selects, and data[31:2] plays no
part. -/
def Obligations.CtrlWriteExecutesCommand : Prop :=
  ∀ (s : State) (data : Word) (r r' : BitVec 30) (b : BitVec 1),
    (data.getLsbD 1 = true → exec (.regWrite 0x00#32 data) s = exec (.ctrlSreset r b) s) ∧
    (data.getLsbD 1 = false → data.getLsbD 0 = true →
      exec (.regWrite 0x00#32 data) s = exec (.ctrlStart r) s) ∧
    (data.getLsbD 1 = false → data.getLsbD 0 = false →
      exec (.regWrite 0x00#32 data) s = exec (.ctrlNop r) s) ∧
    exec (.regWrite 0x00#32 (r ++ data.extractLsb' 0 2)) s =
      exec (.regWrite 0x00#32 (r' ++ data.extractLsb' 0 2)) s

/-- R193, R79: MSG_READ, refused with BUSERR where the index is out of range or the block busy; else a
written byte is returned zero-extended with no other effect, a never-written one as some byte, and
only the draw counter moves. -/
def Obligations.MsgReadReturnsByte : Prop :=
  (∀ addr data : Word, decodeHreq (0b10#2 ++ addr ++ data) = .msgRead addr data) ∧
  ∀ (s : State) (addr data : Word),
    (s.pbBytes ≤ addr.toNat ∨ s.busy = true →
      exec (.msgRead addr data) s = .next { s with hresp := some ⟨true, 0#32⟩ }) ∧
    (addr.toNat < s.pbBytes → s.busy = false →
      (∀ b, s.pb.byteAt addr.toNat = some b → exec (.msgRead addr data) s =
        .next { s with hresp := some ⟨false, BitVec.ofNat 32 b.toNat⟩ }) ∧
      (s.pb.byteAt addr.toNat = none → ∃ (v : Byte) (t : State),
        exec (.msgRead addr data) s = .next t ∧
        t = { s with hresp := some ⟨false, BitVec.ofNat 32 v.toNat⟩, draws := t.draws }))

/-- R194: MSG_WRITE, refused with BUSERR where the index is out of range or the block busy; else it
stores data[7:0]. -/
def Obligations.MsgWriteStoresByte : Prop :=
  (∀ addr data : Word, decodeHreq (0b11#2 ++ addr ++ data) = .msgWrite addr data) ∧
  ∀ (s : State) (addr data : Word),
    (s.pbBytes ≤ addr.toNat ∨ s.busy = true →
      exec (.msgWrite addr data) s = .next { s with hresp := some ⟨true, 0#32⟩ }) ∧
    (addr.toNat < s.pbBytes → s.busy = false →
      ∃ t, exec (.msgWrite addr data) s = .next t ∧
        t = { s with pb := t.pb, hresp := some ⟨false, 0#32⟩ } ∧
        t.pb.byteAt addr.toNat = some (BitVec.ofNat 8 (data.toNat % 256)) ∧
        ∀ a, a ≠ addr.toNat → t.pb.byteAt a = s.pb.byteAt a)

/-- R225: each cause of BUSERR is answered so with no state change, and no other transaction is
refused. -/
def Obligations.BusErrorExactly : Prop :=
  ∀ (s : State) (addr data : Word),
    let outside : Prop := addr.toNat / 256 ≠ 0
    let misaligned : Prop := addr.toNat % 4 ≠ 0
    let isLen : Prop := addr = 0x08#32 ∨ addr = 0x0C#32
    let noByte : Prop := s.pbBytes ≤ addr.toNat
    let refused (i : Instr) (cause : Prop) : Prop :=
      (cause → exec i s = .next { s with hresp := some ⟨true, 0#32⟩ }) ∧
      (¬cause → ∃ t v, exec i s = .next t ∧ t.hresp = some ⟨false, v⟩)
    refused (.regRead addr data) (outside ∨ misaligned) ∧
    refused (.regWrite addr data) (outside ∨ misaligned ∨ (isLen ∧ s.busy = true)) ∧
    refused (.msgRead addr data) (noByte ∨ s.busy = true) ∧
    refused (.msgWrite addr data) (noByte ∨ s.busy = true)

/-- R84: err is bit 32 of the response word and rdata its bits 31:0. R84, R190: every host operation, in
every state, is answered by exactly one response in the same step; a BUSERR and every write or command
carry rdata 0. -/
def Obligations.EveryRequestAnswered : Prop :=
  (∀ r : HResp, (encodeHresp r).getLsbD 32 = r.err ∧ (encodeHresp r).extractLsb' 0 32 = r.rdata) ∧
  ∀ (i : Instr) (s : State), i.isHost = true →
    ∃ t r, exec i s = .next t ∧ t.hresp = some r ∧
      (r.err = true → r.rdata = 0#32) ∧
      ((∀ a d, i ≠ .regRead a d) → (∀ a d, i ≠ .msgRead a d) → r.rdata = 0#32)

/-- R196: an idle START whose length passes both checks begins a run. -/
def Obligations.StartAcceptedBeginsRun : Prop :=
  ∀ (s : State) (r : BitVec 30), s.busy = false → s.LengthFits →
    exec (.ctrlStart r) s = .next { s with
      busy := true, done := false, err := false, errcode := 0#4, nblk := 0#64, ptr := s.len
      blk := 0#64, phase := Phase.initH, idx := 0#8, hresp := some ⟨false, 0#32⟩ }

/-- R220, R222, R223: an idle START records InputTooLarge exactly if L ≥ 2^61, whatever the capacity,
which such an L always exceeds too. -/
def Obligations.StartTooLargeRaisesError : Prop :=
  ∀ (s : State) (r : BitVec 30), s.busy = false →
    (2 ^ 61 ≤ s.len.toNat →
      s.pbBytes < pbLen s.len.toNat ∧
      exec (.ctrlStart r) s = .next { s with
        done := false, err := true, errcode := 1#4, nblk := 0#64, hresp := some ⟨false, 0#32⟩ }) ∧
    ((∃ t, exec (.ctrlStart r) s = .next t ∧ t.errcode = 1#4) → 2 ^ 61 ≤ s.len.toNat)

/-- R221, R222: an idle START records CapacityExceeded exactly if L < 2^61 and PBLEN(L) > PB_BYTES,
that is L > PB_BYTES - 9. -/
def Obligations.StartOverCapacityRaisesError : Prop :=
  ∀ (s : State) (r : BitVec 30), s.busy = false →
    (s.pbBytes < pbLen s.len.toNat ↔ s.pbBytes < s.len.toNat + 9) ∧
    (s.len.toNat < 2 ^ 61 → s.pbBytes < s.len.toNat + 9 →
      exec (.ctrlStart r) s = .next { s with
        done := false, err := true, errcode := 2#4, nblk := 0#64, hresp := some ⟨false, 0#32⟩ }) ∧
    ((∃ t, exec (.ctrlStart r) s = .next t ∧ t.errcode = 2#4) →
      s.len.toNat < 2 ^ 61 ∧ s.pbBytes < s.len.toNat + 9)

/-- R223 case 1, R246: a START while busy is ignored and answered OK. -/
def Obligations.StartWhileBusyIgnored : Prop :=
  ∀ (s : State) (r : BitVec 30), s.busy = true →
    exec (.ctrlStart r) s = .next { s with hresp := some ⟨false, 0#32⟩ }

/-- R197: CTRL_SRESET in any state, whatever the other bits of its word. -/
def Obligations.SoftResetClearsRun : Prop :=
  (∀ w : BitVec 32, w.getLsbD 1 = true → ∃ r b, decodeCtrlw w = .ctrlSreset r b) ∧
  ∀ (s : State) (r : BitVec 30) (b : BitVec 1),
    exec (.ctrlSreset r b) s = .next { s with
      phase := Phase.idle, idx := 0#8, busy := false, done := false, err := false, errcode := 0#4
      ptr := 0#64, blk := 0#64, nblk := 0#64, hresp := some ⟨false, 0#32⟩ }

/-- R198: CTRL_NOP. -/
def Obligations.CtrlNopHasNoEffect : Prop :=
  (∀ w : BitVec 32, w.getLsbD 1 = false → w.getLsbD 0 = false → ∃ r, decodeCtrlw w = .ctrlNop r) ∧
  ∀ (s : State) (r : BitVec 30), exec (.ctrlNop r) s = .next { s with hresp := some ⟨false, 0#32⟩ }

/-- R77, R178, R244, R246: while a run is in progress every host operation but a soft reset leaves
the run, its length and its buffer as they were; only IRQEN, the response and the draw counter can
change. -/
def Obligations.HostCannotDisturbRun : Prop :=
  ∀ (i : Instr) (s : State), i.isHost = true → i.isSreset = false → s.busy = true →
    ∃ t, exec i s = .next t ∧
      t = { s with hresp := t.hresp, doneIe := t.doneIe, errIe := t.errIe, draws := t.draws }

/-- R228: the irq level, the bit of STATUS that mirrors it, and that the two sources are exclusive in
states that meet the STATUS invariants. -/
def Obligations.InterruptLevel : Prop :=
  ∀ s : State,
    s.irq = ((s.done && s.doneIe) || (s.err && s.errIe)) ∧
    (∀ (data : Word) (t : State) (v : HResp), exec (.regRead 0x04#32 data) s = .next t →
      t.hresp = some v → v.rdata.getLsbD 8 = s.irq) ∧
    (s.StatusOk → s.irq = true → s.done = true ∧ s.err = false ∨ s.done = false ∧ s.err = true) ∧
    (∀ (r : BitVec 30) (b : BitVec 1) (t : State), exec (.ctrlSreset r b) s = .next t → t.irq = false)

/-! ## Whole-machine rules -/

/-- R31, R32, R33: HS is written by INIT_H and ACCUM, WV by WV_INIT and ROUND, W by SCHED_LOAD and
SCHED_EXP, and by no other operation. -/
def Obligations.RegisterFileWriters : Prop :=
  ∀ (i : Instr) (s t : State), exec i s = .next t →
    (t.hs = s.hs ∨ i = .initH ∨ i = .accum) ∧
    (t.wv = s.wv ∨ i = .wvInit ∨ ∃ n, i = .round n) ∧
    (t.w = s.w ∨ (∃ n, i = .schedLoad n) ∨ ∃ n, i = .schedExp n)

/-- R42, R43: L changes only by an idle REG_WRITE to LEN_LO or LEN_HI, IRQEN only by a REG_WRITE to
IRQEN; no operation changes the instance's PB_BYTES or the turns to come. -/
def Obligations.ConfigurationWriters : Prop :=
  ∀ (i : Instr) (s t : State), exec i s = .next t →
    (t.len = s.len ∨ (s.busy = false ∧ ∃ d, i = .regWrite 0x08#32 d ∨ i = .regWrite 0x0C#32 d)) ∧
    ((t.doneIe = s.doneIe ∧ t.errIe = s.errIe) ∨ ∃ d, i = .regWrite 0x10#32 d) ∧
    t.pbLastBlock = s.pbLastBlock ∧ t.agenda = s.agenda ∧ t.thereafter = s.thereafter

/-- R41, R45, R36, R37, R224: which operations write each STATUS bit, NBLK, PTR and blk; so ERR and
ERRCODE stay set until an idle START or a soft reset, and no error occurs within a run. -/
def Obligations.StatusAndCounterWriters : Prop :=
  ∀ (i : Instr) (s t : State), exec i s = .next t →
    let cleared : Prop := i.isSreset = true ∨ (i.isStart = true ∧ s.busy = false)
    ((t.err = s.err ∧ t.errcode = s.errcode) ∨ cleared) ∧
    ((t.done = s.done ∧ t.busy = s.busy) ∨ cleared ∨ i = .blockNext) ∧
    (t.nblk = s.nblk ∨ cleared ∨ i = .padLen) ∧
    (t.ptr = s.ptr ∨ cleared ∨ i = .padMark ∨ i = .padZero ∨ i = .padLen) ∧
    (t.blk = s.blk ∨ cleared ∨ i = .blockNext)

/-- R60, R68: PB is reached only by MSG_WRITE, one byte at its index while idle, and by the padding
unit, from PTR upwards; no byte outside 0 .. PB_BYTES-1 changes. -/
def Obligations.BufferWriters : Prop :=
  ∀ (i : Instr) (s t : State), exec i s = .next t → ∀ a, t.pb.byteAt a ≠ s.pb.byteAt a →
    a < s.pbBytes ∧
    ((s.busy = false ∧ ∃ addr d, i = .msgWrite addr d ∧ a = addr.toNat) ∨
     ((i = .padMark ∨ i = .padZero) ∧ a = s.ptr.toNat) ∨
     (i = .padLen ∧ s.ptr.toNat ≤ a ∧ a < s.ptr.toNat + 8))

/-- Log entry 10 (the model's reading of R60): a core access to an index PB does not have faults, and
only then; R226 and R67 say no run reaches one. -/
def Obligations.OutOfRangeAccessFaults : Prop :=
  ∀ s : State,
    (s.pbBytes ≤ s.ptr.toNat →
      exec .padMark s = .fault .pbOutOfRange ∧ exec .padZero s = .fault .pbOutOfRange) ∧
    (s.pbBytes < s.ptr.toNat + 8 → exec .padLen s = .fault .pbOutOfRange) ∧
    (∀ t : BitVec 8, t.toNat < 16 → s.pbBytes < 64 * s.blk.toNat + 4 * t.toNat + 4 →
      exec (.schedLoad t) s = .fault .pbOutOfRange) ∧
    (∀ (i : Instr) (f : Fault), exec i s = .fault f → f = .pbOutOfRange ∧
      (((i = .padMark ∨ i = .padZero) ∧ s.pbBytes ≤ s.ptr.toNat) ∨
       (i = .padLen ∧ s.pbBytes < s.ptr.toNat + 8) ∨
       ∃ t, i = .schedLoad t ∧ t.toNat < 16 ∧ s.pbBytes < 64 * s.blk.toNat + 4 * t.toNat + 4))

/-- R88, R179: an operation whose index operand is reserved is refused by name, and no other is
refused; log entry 11: so is every turn but the hardware reset in a state that holds a reserved UOP
word or a reserved ERRCODE. -/
def Obligations.ReservedIsRefused : Prop :=
  (∀ (i : Instr) (s : State),
    (i.wf = false → exec i s = .refused .reservedUop) ∧
    (∀ r, exec i s = .refused r → i.wf = false)) ∧
  (∀ s : State, s.nextTurn ≠ .powerOn →
    (2 < s.errcode.toNat → step s = .refused .reservedErrcode) ∧
    (s.errcode.toNat ≤ 2 → (decodeUop s.seq).toOption = none → step s = .refused .reservedUop))

/-- R52, R240: what power-on leaves, as far as the spec states it: no byte of PB has been written. -/
def Obligations.ResetValues : Prop :=
  let s := State.reset
  s.phase = Phase.idle ∧ s.idx = 0#8 ∧ s.busy = false ∧ s.done = false ∧ s.err = false ∧
  s.errcode = 0#4 ∧ s.len = 0#64 ∧ s.doneIe = false ∧ s.errIe = false ∧ s.ptr = 0#64 ∧
  s.blk = 0#64 ∧ s.nblk = 0#64 ∧ s.irq = false ∧ ∀ a, s.pb.byteAt a = none

/-- R240: the hardware reset input, at any turn and in any state, aborts the run and leaves the
power-on values (HS, WV and W are unspecified there, and nothing is said of them); the instance's
PB_BYTES stays. -/
def Obligations.HardwareResetAbortsRun : Prop :=
  ∀ s : State, s.nextTurn = .powerOn →
    ∃ t, step s = .next t ∧ t.agenda = s.agenda.tail ∧ t.thereafter = s.thereafter ∧
      t.pbLastBlock = s.pbLastBlock ∧
      t.phase = Phase.idle ∧ t.idx = 0#8 ∧ t.busy = false ∧ t.done = false ∧ t.err = false ∧
      t.errcode = 0#4 ∧ t.len = 0#64 ∧ t.doneIe = false ∧ t.errIe = false ∧ t.ptr = 0#64 ∧
      t.blk = 0#64 ∧ t.nblk = 0#64 ∧ ∀ a, t.pb.byteAt a = none

/-- The model's convention (log entries 1 and 9: turns, and the command turn; log entry 11: Admits)
for R170 and R190: a step takes the next turn and runs the operation that its word decodes to. -/
def Obligations.StepRunsDecodedOperation : Prop :=
  ∀ s : State, s.Admits →
    (∀ i, s.nextTurn = .core → s.busy = true → decode (.uop s.seq) = .ok i →
      step s = exec i s.takeTurn) ∧
    (∀ w i, s.nextTurn = .request w → decode (.hreq w) = .ok i → step s = exec i s.takeTurn) ∧
    (∀ w i, s.nextTurn = .command w → decode (.ctrlw w) = .ok i → step s = exec i s.takeTurn)

/-- Log entry 13: the table's word, placed, is the next operation run, in every admitting state with
no reserved word placed. -/
def Obligations.PlacedWordRunsNext : Prop :=
  ∀ (s : State) (nbits w : Nat) (i : Instr), s.Admits → decodeTableWord nbits w = some i →
    step (s.withFetchWord nbits w) = exec i (s.withFetchWord nbits w).takeTurn

/-! ## The invariant -/

/-- The invariant holds at reset. -/
def Obligations.InvariantHoldsAtReset : Prop := State.reset.Inv

/-- R41, R37, R67, R174: every step of either agent, and the hardware reset, keeps the invariant. -/
def Obligations.StepKeepsInvariant : Prop :=
  ∀ s t : State, s.Inv → step s = .next t → t.Inv

/-- R226, R252: a state that meets the invariant always has a next step, no fault and no refusal, and so
goes on for ever under every schedule (R73, log entry 17). R252: without core_fair a schedule that
never steps the core, here one without a reset, keeps BUSY = 1 for ever. -/
def Obligations.InvariantStateAlwaysSteps : Prop :=
  (∀ s : State, s.Inv → ∃ t, step s = .next t) ∧
  (∀ (s : State) (sched : Schedule) (n : Nat), s.Inv → ∃ t, s.under sched n = .next t) ∧
  ∀ (s : State) (sched : Schedule), s.Admits → s.busy = true →
    (∀ n, (sched n).harmless = true ∧ sched n ≠ .core) → ∀ n, s.busyUnder sched n
end

