-- ==== Sys2Proof/Laws/Encoding.lean ====
section
/-! SUPPORT. Taking the fields out of a word and putting them back, for the formats HREQ, CTRLW and
UOP (30_encoding.md R81, R83, R85). -/

namespace Sys2Proof

theorem hreqWord_kindField (kind : BitVec 2) (addr data : Word) :
    (hreqWord kind addr data).extractLsb' 64 2 = kind := by
  apply BitVec.eq_of_getLsbD_eq
  intro i hi
  simp only [hreqWord, BitVec.getLsbD_extractLsb', BitVec.getLsbD_append]
  rw [if_neg (by omega), if_neg (by omega), show 64 + i - 32 - 32 = i by omega]
  simp [hi]

theorem hreqWord_addrField (kind : BitVec 2) (addr data : Word) :
    (hreqWord kind addr data).extractLsb' 32 32 = addr := by
  apply BitVec.eq_of_getLsbD_eq
  intro i hi
  simp only [hreqWord, BitVec.getLsbD_extractLsb', BitVec.getLsbD_append]
  rw [if_neg (by omega), if_pos (by omega), show 32 + i - 32 = i by omega]
  simp [hi]

theorem hreqWord_dataField (kind : BitVec 2) (addr data : Word) :
    (hreqWord kind addr data).extractLsb' 0 32 = data := by
  apply BitVec.eq_of_getLsbD_eq
  intro i hi
  simp only [hreqWord, BitVec.getLsbD_extractLsb', BitVec.getLsbD_append]
  rw [if_pos (by omega), show 0 + i = i by omega]
  simp [hi]

/-- An HREQ word is its three fields. -/
theorem hreqWord_fields (w : BitVec 66) :
    hreqWord (w.extractLsb' 64 2) (w.extractLsb' 32 32) (w.extractLsb' 0 32) = w := by
  apply BitVec.eq_of_getLsbD_eq
  intro i hi
  simp only [hreqWord, BitVec.getLsbD_extractLsb', BitVec.getLsbD_append]
  by_cases h1 : i < 32
  · simp [h1]
  · by_cases h2 : i - 32 < 32
    · simp [h1, h2, show 32 + (i - 32) = i by omega]
    · simp [h1, h2, show 64 + (i - 32 - 32) = i by omega, show i - 32 - 32 < 2 by omega]

theorem ctrlWord_startField (r : BitVec 30) (a b : BitVec 1) :
    (ctrlWord r a b).extractLsb' 0 1 = b := by
  apply BitVec.eq_of_getLsbD_eq
  intro i hi
  simp only [ctrlWord, BitVec.getLsbD_extractLsb', BitVec.getLsbD_append]
  rw [if_pos (by omega), show 0 + i = i by omega]
  simp [hi]

theorem ctrlWord_sresetField (r : BitVec 30) (a b : BitVec 1) :
    (ctrlWord r a b).extractLsb' 1 1 = a := by
  apply BitVec.eq_of_getLsbD_eq
  intro i hi
  simp only [ctrlWord, BitVec.getLsbD_extractLsb', BitVec.getLsbD_append]
  rw [if_neg (by omega), if_pos (by omega), show 1 + i - 1 = i by omega]
  simp [hi]

theorem ctrlWord_reservedField (r : BitVec 30) (a b : BitVec 1) :
    (ctrlWord r a b).extractLsb' 2 30 = r := by
  apply BitVec.eq_of_getLsbD_eq
  intro i hi
  simp only [ctrlWord, BitVec.getLsbD_extractLsb', BitVec.getLsbD_append]
  rw [if_neg (by omega), if_neg (by omega), show 2 + i - 1 - 1 = i by omega]
  simp [hi]

/-- A CTRLW word is its three fields. -/
theorem ctrlWord_fields (w : BitVec 32) :
    ctrlWord (w.extractLsb' 2 30) (w.extractLsb' 1 1) (w.extractLsb' 0 1) = w := by
  apply BitVec.eq_of_getLsbD_eq
  intro i hi
  simp only [ctrlWord, BitVec.getLsbD_extractLsb', BitVec.getLsbD_append]
  by_cases h1 : i < 1
  · simp [h1]
  · by_cases h2 : i - 1 < 1
    · simp [h1, h2, show 1 + (i - 1) = i by omega]
    · simp [h1, h2, show 2 + (i - 1 - 1) = i by omega, show i - 1 - 1 < 30 by omega]

theorem uopWord_idxField (phase idx : BitVec 8) : (uopWord phase idx).extractLsb' 0 8 = idx := by
  apply BitVec.eq_of_getLsbD_eq
  intro i hi
  simp only [uopWord, BitVec.getLsbD_extractLsb', BitVec.getLsbD_append]
  rw [if_pos (by omega), show 0 + i = i by omega]
  simp [hi]

theorem uopWord_phaseField (phase idx : BitVec 8) :
    (uopWord phase idx).extractLsb' 8 8 = phase := by
  apply BitVec.eq_of_getLsbD_eq
  intro i hi
  simp only [uopWord, BitVec.getLsbD_extractLsb', BitVec.getLsbD_append]
  rw [if_neg (by omega), show 8 + i - 8 = i by omega]
  simp [hi]

/-- A UOP word is its phase and idx. -/
theorem uopWord_fields (w : BitVec 16) :
    uopWord (w.extractLsb' 8 8) (w.extractLsb' 0 8) = w := by
  apply BitVec.eq_of_getLsbD_eq
  intro i hi
  simp only [uopWord, BitVec.getLsbD_extractLsb', BitVec.getLsbD_append]
  by_cases h : i < 8
  · simp [h]
  · simp [h, show 8 + (i - 8) = i by omega, show i - 8 < 8 by omega]

/-- An HREQ word decodes by its kind. -/
theorem decodeHreq_hreqWord (kind : BitVec 2) (addr data : Word) :
    decodeHreq (hreqWord kind addr data) =
      if kind = 0b00#2 then .regRead addr data
      else if kind = 0b01#2 then .regWrite addr data
      else if kind = 0b10#2 then .msgRead addr data
      else .msgWrite addr data := by
  simp only [decodeHreq, hreqWord_kindField, hreqWord_addrField, hreqWord_dataField]

/-- A CTRLW word decodes by its two command bits. -/
theorem decodeCtrlw_ctrlWord (r : BitVec 30) (a b : BitVec 1) :
    decodeCtrlw (ctrlWord r a b) =
      if a = 1#1 then .ctrlSreset r b else if b = 1#1 then .ctrlStart r else .ctrlNop r := by
  simp only [decodeCtrlw, commandOf, ctrlWord_startField, ctrlWord_sresetField,
    ctrlWord_reservedField]
  by_cases h1 : a = 1#1
  · simp [h1]
  · by_cases h2 : b = 1#1 <;> simp [h1, h2]

/-- The masks of R82 on phase ‖ idx, as conditions on the two bytes. -/
theorem uopSelects_full (phase idx p : BitVec 8) :
    uopSelects (uopWord phase idx) 0xFFFF#16 (uopWord p 0#8) = (phase == p && idx == 0#8) := by
  have h : uopWord phase idx &&& 0xFFFF#16 = uopWord phase idx := by
    rw [show 0xFFFF#16 = BitVec.allOnes 16 by decide, BitVec.and_allOnes]
  rw [uopSelects, h, Bool.eq_iff_iff]
  simp only [beq_iff_eq, Bool.and_eq_true]
  constructor
  · intro e
    exact ⟨by rw [← uopWord_phaseField phase idx, e, uopWord_phaseField],
      by rw [← uopWord_idxField phase idx, e, uopWord_idxField]⟩
  · rintro ⟨rfl, rfl⟩; rfl

/-- A mask whose high byte is all ones leaves the phase and masks the idx. -/
theorem uopSelects_masked (phase idx p m : BitVec 8) :
    uopSelects (uopWord phase idx) (uopWord 0xFF#8 m) (uopWord p 0#8) =
      (phase == p && idx &&& m == 0#8) := by
  have h : uopWord phase idx &&& uopWord 0xFF#8 m = uopWord phase (idx &&& m) := by
    apply BitVec.eq_of_getLsbD_eq
    intro i hi
    simp only [uopWord, BitVec.getLsbD_and, BitVec.getLsbD_append]
    by_cases hi8 : i < 8
    · simp [hi8]
    · have : (0xFF#8).getLsbD (i - 8) = true := by
        rw [show 0xFF#8 = BitVec.allOnes 8 by decide, BitVec.getLsbD_allOnes]
        exact decide_eq_true (by omega)
      simp [hi8, this]
  rw [uopSelects, h, Bool.eq_iff_iff]
  simp only [beq_iff_eq, Bool.and_eq_true]
  constructor
  · intro e
    exact ⟨by rw [← uopWord_phaseField phase (idx &&& m), e, uopWord_phaseField],
      by rw [← uopWord_idxField phase (idx &&& m), e, uopWord_idxField]⟩
  · rintro ⟨rfl, h⟩; rw [h]

/-- The decoder by phase and idx. -/
theorem decodeUop_uopWord (phase idx : BitVec 8) :
    decodeUop (uopWord phase idx) =
      if phase = Phase.idle ∧ idx = 0#8 then .ok .idle
      else if phase = Phase.initH ∧ idx = 0#8 then .ok .initH
      else if phase = Phase.padMark ∧ idx = 0#8 then .ok .padMark
      else if phase = Phase.padZero ∧ idx = 0#8 then .ok .padZero
      else if phase = Phase.padLen ∧ idx = 0#8 then .ok .padLen
      else if phase = Phase.schedLoad ∧ idx.toNat < 16 then .ok (.schedLoad idx)
      else if phase = Phase.schedExp ∧ 16 ≤ idx.toNat ∧ idx.toNat < 64 then .ok (.schedExp idx)
      else if phase = Phase.wvInit ∧ idx = 0#8 then .ok .wvInit
      else if phase = Phase.round ∧ idx.toNat < 64 then .ok (.round idx)
      else if phase = Phase.accum ∧ idx = 0#8 then .ok .accum
      else if phase = Phase.blockNext ∧ idx = 0#8 then .ok .blockNext
      else .error (.reservedUop (uopWord phase idx)) := by
  have e16 : (idx &&& 0xF0#8 == 0#8) = decide (idx.toNat < 16) := by revert idx; decide
  have e64 : (idx &&& 0xC0#8 == 0#8) = decide (idx.toNat < 64) := by revert idx; decide
  unfold decodeUop
  simp only [show (0x0000#16) = uopWord Phase.idle 0#8 by decide,
    show (0x0100#16) = uopWord Phase.initH 0#8 by decide,
    show (0x0200#16) = uopWord Phase.padMark 0#8 by decide,
    show (0x0300#16) = uopWord Phase.padZero 0#8 by decide,
    show (0x0400#16) = uopWord Phase.padLen 0#8 by decide,
    show (0x0500#16) = uopWord Phase.schedLoad 0#8 by decide,
    show (0x0600#16) = uopWord Phase.schedExp 0#8 by decide,
    show (0x0700#16) = uopWord Phase.wvInit 0#8 by decide,
    show (0x0800#16) = uopWord Phase.round 0#8 by decide,
    show (0x0900#16) = uopWord Phase.accum 0#8 by decide,
    show (0x0A00#16) = uopWord Phase.blockNext 0#8 by decide,
    show (0xFFF0#16) = uopWord 0xFF#8 0xF0#8 by decide,
    show (0xFFC0#16) = uopWord 0xFF#8 0xC0#8 by decide,
    uopSelects_full, uopSelects_masked, uopIdx, uopWord_idxField, e16, e64]
  simp only [Bool.and_eq_true, beq_iff_eq, decide_eq_true_eq, and_assoc,
    @and_comm (idx.toNat < 64) (16 ≤ idx.toNat)]

end Sys2Proof
end

