-- ==== Sys2Proof/Laws/Memory.lean ====
section
/-! SUPPORT. The laws of PB: a read after a write, the canonical form kept by every write, and what
the reads of one byte and of a word give. -/

namespace Sys2Proof.Machine

/-- A byte just written is read back, in any list. -/
@[simp] theorem Memory.byteAt_set_self (m : Memory) (a : Nat) (b : Byte) :
    (m.set a b).byteAt a = some b := by
  induction m with
  | nil => simp [Memory.set, Memory.byteAt]
  | cons c m ih =>
    obtain ⟨k, c⟩ := c
    simp only [Memory.set]
    split
    · simp [Memory.byteAt]
    · split
      · simp [Memory.byteAt]
      · simp [Memory.byteAt, *]

/-- A write leaves every other byte alone. -/
theorem Memory.byteAt_set_ne (m : Memory) {a x : Nat} (b : Byte) (h : x ≠ a) :
    (m.set a b).byteAt x = m.byteAt x := by
  induction m with
  | nil => simp [Memory.set, Memory.byteAt, h]
  | cons c m ih =>
    obtain ⟨k, c⟩ := c
    simp only [Memory.set]
    split
    · simp [Memory.byteAt, h]
    · split
      · next hk => subst hk; simp [Memory.byteAt, h]
      · simp [Memory.byteAt, ih]

/-- Both cases of a byte after a write. -/
theorem Memory.byteAt_set (m : Memory) (a x : Nat) (b : Byte) :
    (m.set a b).byteAt x = if x = a then some b else m.byteAt x := by
  split
  · next h => subst h; simp
  · next h => exact m.byteAt_set_ne b h

/-- A byte after consecutive writes from a upwards. -/
theorem Memory.byteAt_setBytes (m : Memory) (a x : Nat) (bs : List Byte) :
    (m.setBytes a bs).byteAt x =
      if a ≤ x ∧ x < a + bs.length then bs[x - a]? else m.byteAt x := by
  induction bs generalizing m a with
  | nil => simp only [Memory.setBytes, List.length_nil]; rw [if_neg (by omega)]
  | cons b bs ih =>
    simp only [Memory.setBytes, ih, Memory.byteAt_set, List.length_cons]
    by_cases h1 : x = a
    · subst h1
      rw [if_neg (by omega), if_pos rfl, if_pos (by omega)]
      simp
    · by_cases h2 : a + 1 ≤ x ∧ x < a + 1 + bs.length
      · rw [if_pos h2, if_pos (by omega), show x - a = (x - (a + 1)) + 1 by omega]
        simp
      · rw [if_neg h2, if_neg h1, if_neg (by omega)]

/-- The head of a canonical list lies below the rest, which is canonical. -/
theorem Memory.wf_cons {k : Nat} {c : Byte} {m : Memory} :
    Memory.wf ((k, c) :: m) = true ↔ (∀ d ∈ m, k < d.1) ∧ m.wf = true := by
  induction m generalizing k c with
  | nil => simp [Memory.wf]
  | cons d m ih =>
    obtain ⟨l, e⟩ := d
    simp only [Memory.wf, Bool.and_eq_true, decide_eq_true_eq, List.mem_cons, forall_eq_or_imp]
    constructor
    · rintro ⟨hk, hw⟩
      exact ⟨⟨hk, fun d hd => hk.trans ((ih.mp hw).1 d hd)⟩, hw⟩
    · rintro ⟨⟨hk, -⟩, hw⟩
      exact ⟨hk, hw⟩

/-- The indexes listed after a write. -/
theorem Memory.mem_set {m : Memory} {a : Nat} {b : Byte} {d : Host.Cell} (h : d ∈ m.set a b) :
    d = (a, b) ∨ d ∈ m := by
  induction m with
  | nil => simpa [Memory.set] using h
  | cons c m ih =>
    obtain ⟨k, c⟩ := c
    simp only [Memory.set] at h
    split at h
    · simpa using h
    · split at h
      · simp only [List.mem_cons] at h ⊢; tauto
      · simp only [List.mem_cons] at h ⊢
        rcases h with h | h
        · exact .inr (.inl h)
        · rcases ih h with h | h
          · exact .inl h
          · exact .inr (.inr h)

/-- A write keeps the canonical form. -/
theorem Memory.wf_set {m : Memory} (a : Nat) (b : Byte) (h : m.wf = true) :
    (m.set a b).wf = true := by
  induction m with
  | nil => rfl
  | cons c m ih =>
    obtain ⟨k, c⟩ := c
    have hc := Memory.wf_cons.mp h
    simp only [Memory.set]
    split
    · next hk =>
      refine Memory.wf_cons.mpr ⟨fun d hd => ?_, h⟩
      rcases List.mem_cons.mp hd with rfl | hd
      · exact hk
      · exact hk.trans (hc.1 d hd)
    · split
      · next hk => subst hk; exact Memory.wf_cons.mpr hc
      · refine Memory.wf_cons.mpr ⟨fun d hd => ?_, ih hc.2⟩
        rcases Memory.mem_set hd with rfl | hd
        · simp only; omega
        · exact hc.1 d hd

/-- Consecutive writes keep the canonical form. -/
theorem Memory.wf_setBytes {m : Memory} (a : Nat) (bs : List Byte) (h : m.wf = true) :
    (m.setBytes a bs).wf = true := by
  induction bs generalizing m a with
  | nil => exact h
  | cons b bs ih => exact ih (a + 1) (Memory.wf_set a b h)

/-- A write below n keeps every index below n. -/
theorem Memory.below_set {m : Memory} {n a : Nat} (b : Byte) (h : m.Below n) (ha : a < n) :
    (m.set a b).Below n := by
  intro c hc
  rcases Memory.mem_set hc with rfl | hc
  · exact ha
  · exact h c hc

/-- Consecutive writes below n keep every index below n. -/
theorem Memory.below_setBytes {m : Memory} {n a : Nat} (bs : List Byte) (h : m.Below n)
    (ha : a + bs.length ≤ n) : (m.setBytes a bs).Below n := by
  induction bs generalizing m a with
  | nil => exact h
  | cons b bs ih =>
    simp only [List.length_cons] at ha
    exact ih (Memory.below_set b h (by omega)) (by omega)

/-- Reset's PB is canonical. -/
theorem Memory.wf_reset : State.reset.pb.wf = true := rfl

/-- Reading a written byte gives it and draws nothing. -/
theorem Memory.read_of_some {m : Memory} {a : Nat} {b : Byte} (d : Nat) (h : m.byteAt a = some b) :
    m.read a d = (b, d) := by
  simp [Memory.read, h]

/-- Reading a never-written byte gives the next free byte. -/
theorem Memory.read_of_none {m : Memory} {a : Nat} (d : Nat) (h : m.byteAt a = none) :
    m.read a d = (Config.freeByte d, d + 1) := by
  simp [Memory.read, h]

/-- A word of four written bytes, big-endian; nothing is drawn. -/
theorem Memory.readWord_of_some {m : Memory} {a : Nat} {b0 b1 b2 b3 : Byte} (d : Nat)
    (h0 : m.byteAt a = some b0) (h1 : m.byteAt (a + 1) = some b1)
    (h2 : m.byteAt (a + 2) = some b2) (h3 : m.byteAt (a + 3) = some b3) :
    m.readWord a d = (b0 ++ b1 ++ b2 ++ b3, d) := by
  simp [Memory.readWord, Memory.read_of_some, h0, h1, h2, h3]

end Sys2Proof.Machine
end

