-- ==== Sys2Proof/Laws/State.lean ====
section
/-! SUPPORT. What each named state update leaves in each field, so that no proof unfolds one. -/

namespace Sys2Proof.Machine

variable (s : State)

/-! goto -/

@[simp] theorem State.goto_hs (p i : BitVec 8) : (s.goto p i).hs = s.hs := rfl
@[simp] theorem State.goto_wv (p i : BitVec 8) : (s.goto p i).wv = s.wv := rfl
@[simp] theorem State.goto_w (p i : BitVec 8) : (s.goto p i).w = s.w := rfl
@[simp] theorem State.goto_phase (p i : BitVec 8) : (s.goto p i).phase = p := rfl
@[simp] theorem State.goto_idx (p i : BitVec 8) : (s.goto p i).idx = i := rfl
@[simp] theorem State.goto_ptr (p i : BitVec 8) : (s.goto p i).ptr = s.ptr := rfl
@[simp] theorem State.goto_blk (p i : BitVec 8) : (s.goto p i).blk = s.blk := rfl
@[simp] theorem State.goto_nblk (p i : BitVec 8) : (s.goto p i).nblk = s.nblk := rfl
@[simp] theorem State.goto_busy (p i : BitVec 8) : (s.goto p i).busy = s.busy := rfl
@[simp] theorem State.goto_done (p i : BitVec 8) : (s.goto p i).done = s.done := rfl
@[simp] theorem State.goto_err (p i : BitVec 8) : (s.goto p i).err = s.err := rfl
@[simp] theorem State.goto_errcode (p i : BitVec 8) : (s.goto p i).errcode = s.errcode := rfl
@[simp] theorem State.goto_len (p i : BitVec 8) : (s.goto p i).len = s.len := rfl
@[simp] theorem State.goto_doneIe (p i : BitVec 8) : (s.goto p i).doneIe = s.doneIe := rfl
@[simp] theorem State.goto_errIe (p i : BitVec 8) : (s.goto p i).errIe = s.errIe := rfl
@[simp] theorem State.goto_pb (p i : BitVec 8) : (s.goto p i).pb = s.pb := rfl
@[simp] theorem State.goto_pbLastBlock (p i : BitVec 8) : (s.goto p i).pbLastBlock = s.pbLastBlock := rfl
@[simp] theorem State.goto_hresp (p i : BitVec 8) : (s.goto p i).hresp = s.hresp := rfl
@[simp] theorem State.goto_agenda (p i : BitVec 8) : (s.goto p i).agenda = s.agenda := rfl
@[simp] theorem State.goto_thereafter (p i : BitVec 8) :
    (s.goto p i).thereafter = s.thereafter := rfl
@[simp] theorem State.goto_draws (p i : BitVec 8) : (s.goto p i).draws = s.draws := rfl
@[simp] theorem State.goto_pbBytes (p i : BitVec 8) : (s.goto p i).pbBytes = s.pbBytes := rfl

/-! respondOk -/

@[simp] theorem State.respondOk_hs (d : Word) : (s.respondOk d).hs = s.hs := rfl
@[simp] theorem State.respondOk_wv (d : Word) : (s.respondOk d).wv = s.wv := rfl
@[simp] theorem State.respondOk_w (d : Word) : (s.respondOk d).w = s.w := rfl
@[simp] theorem State.respondOk_phase (d : Word) : (s.respondOk d).phase = s.phase := rfl
@[simp] theorem State.respondOk_idx (d : Word) : (s.respondOk d).idx = s.idx := rfl
@[simp] theorem State.respondOk_ptr (d : Word) : (s.respondOk d).ptr = s.ptr := rfl
@[simp] theorem State.respondOk_blk (d : Word) : (s.respondOk d).blk = s.blk := rfl
@[simp] theorem State.respondOk_nblk (d : Word) : (s.respondOk d).nblk = s.nblk := rfl
@[simp] theorem State.respondOk_busy (d : Word) : (s.respondOk d).busy = s.busy := rfl
@[simp] theorem State.respondOk_done (d : Word) : (s.respondOk d).done = s.done := rfl
@[simp] theorem State.respondOk_err (d : Word) : (s.respondOk d).err = s.err := rfl
@[simp] theorem State.respondOk_errcode (d : Word) : (s.respondOk d).errcode = s.errcode := rfl
@[simp] theorem State.respondOk_len (d : Word) : (s.respondOk d).len = s.len := rfl
@[simp] theorem State.respondOk_doneIe (d : Word) : (s.respondOk d).doneIe = s.doneIe := rfl
@[simp] theorem State.respondOk_errIe (d : Word) : (s.respondOk d).errIe = s.errIe := rfl
@[simp] theorem State.respondOk_pb (d : Word) : (s.respondOk d).pb = s.pb := rfl
@[simp] theorem State.respondOk_pbLastBlock (d : Word) : (s.respondOk d).pbLastBlock = s.pbLastBlock := rfl
@[simp] theorem State.respondOk_hresp (d : Word) : (s.respondOk d).hresp = some ⟨false, d⟩ := rfl
@[simp] theorem State.respondOk_agenda (d : Word) : (s.respondOk d).agenda = s.agenda := rfl
@[simp] theorem State.respondOk_thereafter (d : Word) :
    (s.respondOk d).thereafter = s.thereafter := rfl
@[simp] theorem State.respondOk_draws (d : Word) : (s.respondOk d).draws = s.draws := rfl
@[simp] theorem State.respondOk_pbBytes (d : Word) : (s.respondOk d).pbBytes = s.pbBytes := rfl

/-! respondBusErr -/

@[simp] theorem State.respondBusErr_hs : s.respondBusErr.hs = s.hs := rfl
@[simp] theorem State.respondBusErr_wv : s.respondBusErr.wv = s.wv := rfl
@[simp] theorem State.respondBusErr_w : s.respondBusErr.w = s.w := rfl
@[simp] theorem State.respondBusErr_phase : s.respondBusErr.phase = s.phase := rfl
@[simp] theorem State.respondBusErr_idx : s.respondBusErr.idx = s.idx := rfl
@[simp] theorem State.respondBusErr_ptr : s.respondBusErr.ptr = s.ptr := rfl
@[simp] theorem State.respondBusErr_blk : s.respondBusErr.blk = s.blk := rfl
@[simp] theorem State.respondBusErr_nblk : s.respondBusErr.nblk = s.nblk := rfl
@[simp] theorem State.respondBusErr_busy : s.respondBusErr.busy = s.busy := rfl
@[simp] theorem State.respondBusErr_done : s.respondBusErr.done = s.done := rfl
@[simp] theorem State.respondBusErr_err : s.respondBusErr.err = s.err := rfl
@[simp] theorem State.respondBusErr_errcode : s.respondBusErr.errcode = s.errcode := rfl
@[simp] theorem State.respondBusErr_len : s.respondBusErr.len = s.len := rfl
@[simp] theorem State.respondBusErr_doneIe : s.respondBusErr.doneIe = s.doneIe := rfl
@[simp] theorem State.respondBusErr_errIe : s.respondBusErr.errIe = s.errIe := rfl
@[simp] theorem State.respondBusErr_pb : s.respondBusErr.pb = s.pb := rfl
@[simp] theorem State.respondBusErr_pbLastBlock : s.respondBusErr.pbLastBlock = s.pbLastBlock := rfl
@[simp] theorem State.respondBusErr_hresp : s.respondBusErr.hresp = some ⟨true, 0#32⟩ := rfl
@[simp] theorem State.respondBusErr_agenda : s.respondBusErr.agenda = s.agenda := rfl
@[simp] theorem State.respondBusErr_thereafter : s.respondBusErr.thereafter = s.thereafter := rfl
@[simp] theorem State.respondBusErr_draws : s.respondBusErr.draws = s.draws := rfl
@[simp] theorem State.respondBusErr_pbBytes : s.respondBusErr.pbBytes = s.pbBytes := rfl

/-! raiseErr -/

@[simp] theorem State.raiseErr_hs (c : BitVec 4) : (s.raiseErr c).hs = s.hs := rfl
@[simp] theorem State.raiseErr_wv (c : BitVec 4) : (s.raiseErr c).wv = s.wv := rfl
@[simp] theorem State.raiseErr_w (c : BitVec 4) : (s.raiseErr c).w = s.w := rfl
@[simp] theorem State.raiseErr_phase (c : BitVec 4) : (s.raiseErr c).phase = s.phase := rfl
@[simp] theorem State.raiseErr_idx (c : BitVec 4) : (s.raiseErr c).idx = s.idx := rfl
@[simp] theorem State.raiseErr_ptr (c : BitVec 4) : (s.raiseErr c).ptr = s.ptr := rfl
@[simp] theorem State.raiseErr_blk (c : BitVec 4) : (s.raiseErr c).blk = s.blk := rfl
@[simp] theorem State.raiseErr_nblk (c : BitVec 4) : (s.raiseErr c).nblk = s.nblk := rfl
@[simp] theorem State.raiseErr_busy (c : BitVec 4) : (s.raiseErr c).busy = s.busy := rfl
@[simp] theorem State.raiseErr_done (c : BitVec 4) : (s.raiseErr c).done = s.done := rfl
@[simp] theorem State.raiseErr_err (c : BitVec 4) : (s.raiseErr c).err = true := rfl
@[simp] theorem State.raiseErr_errcode (c : BitVec 4) : (s.raiseErr c).errcode = c := rfl
@[simp] theorem State.raiseErr_len (c : BitVec 4) : (s.raiseErr c).len = s.len := rfl
@[simp] theorem State.raiseErr_doneIe (c : BitVec 4) : (s.raiseErr c).doneIe = s.doneIe := rfl
@[simp] theorem State.raiseErr_errIe (c : BitVec 4) : (s.raiseErr c).errIe = s.errIe := rfl
@[simp] theorem State.raiseErr_pb (c : BitVec 4) : (s.raiseErr c).pb = s.pb := rfl
@[simp] theorem State.raiseErr_pbLastBlock (c : BitVec 4) : (s.raiseErr c).pbLastBlock = s.pbLastBlock := rfl
@[simp] theorem State.raiseErr_hresp (c : BitVec 4) : (s.raiseErr c).hresp = s.hresp := rfl
@[simp] theorem State.raiseErr_agenda (c : BitVec 4) : (s.raiseErr c).agenda = s.agenda := rfl
@[simp] theorem State.raiseErr_thereafter (c : BitVec 4) :
    (s.raiseErr c).thereafter = s.thereafter := rfl
@[simp] theorem State.raiseErr_draws (c : BitVec 4) : (s.raiseErr c).draws = s.draws := rfl
@[simp] theorem State.raiseErr_pbBytes (c : BitVec 4) : (s.raiseErr c).pbBytes = s.pbBytes := rfl

/-! clearForStart -/

@[simp] theorem State.clearForStart_hs : s.clearForStart.hs = s.hs := rfl
@[simp] theorem State.clearForStart_wv : s.clearForStart.wv = s.wv := rfl
@[simp] theorem State.clearForStart_w : s.clearForStart.w = s.w := rfl
@[simp] theorem State.clearForStart_phase : s.clearForStart.phase = s.phase := rfl
@[simp] theorem State.clearForStart_idx : s.clearForStart.idx = s.idx := rfl
@[simp] theorem State.clearForStart_ptr : s.clearForStart.ptr = s.ptr := rfl
@[simp] theorem State.clearForStart_blk : s.clearForStart.blk = s.blk := rfl
@[simp] theorem State.clearForStart_nblk : s.clearForStart.nblk = 0#64 := rfl
@[simp] theorem State.clearForStart_busy : s.clearForStart.busy = s.busy := rfl
@[simp] theorem State.clearForStart_done : s.clearForStart.done = false := rfl
@[simp] theorem State.clearForStart_err : s.clearForStart.err = false := rfl
@[simp] theorem State.clearForStart_errcode : s.clearForStart.errcode = 0#4 := rfl
@[simp] theorem State.clearForStart_len : s.clearForStart.len = s.len := rfl
@[simp] theorem State.clearForStart_doneIe : s.clearForStart.doneIe = s.doneIe := rfl
@[simp] theorem State.clearForStart_errIe : s.clearForStart.errIe = s.errIe := rfl
@[simp] theorem State.clearForStart_pb : s.clearForStart.pb = s.pb := rfl
@[simp] theorem State.clearForStart_pbLastBlock : s.clearForStart.pbLastBlock = s.pbLastBlock := rfl
@[simp] theorem State.clearForStart_hresp : s.clearForStart.hresp = s.hresp := rfl
@[simp] theorem State.clearForStart_agenda : s.clearForStart.agenda = s.agenda := rfl
@[simp] theorem State.clearForStart_thereafter : s.clearForStart.thereafter = s.thereafter := rfl
@[simp] theorem State.clearForStart_draws : s.clearForStart.draws = s.draws := rfl
@[simp] theorem State.clearForStart_pbBytes : s.clearForStart.pbBytes = s.pbBytes := rfl

/-! beginRun -/

@[simp] theorem State.beginRun_hs : s.beginRun.hs = s.hs := rfl
@[simp] theorem State.beginRun_wv : s.beginRun.wv = s.wv := rfl
@[simp] theorem State.beginRun_w : s.beginRun.w = s.w := rfl
@[simp] theorem State.beginRun_phase : s.beginRun.phase = Phase.initH := rfl
@[simp] theorem State.beginRun_idx : s.beginRun.idx = 0#8 := rfl
@[simp] theorem State.beginRun_ptr : s.beginRun.ptr = s.len := rfl
@[simp] theorem State.beginRun_blk : s.beginRun.blk = 0#64 := rfl
@[simp] theorem State.beginRun_nblk : s.beginRun.nblk = s.nblk := rfl
@[simp] theorem State.beginRun_busy : s.beginRun.busy = true := rfl
@[simp] theorem State.beginRun_done : s.beginRun.done = s.done := rfl
@[simp] theorem State.beginRun_err : s.beginRun.err = s.err := rfl
@[simp] theorem State.beginRun_errcode : s.beginRun.errcode = s.errcode := rfl
@[simp] theorem State.beginRun_len : s.beginRun.len = s.len := rfl
@[simp] theorem State.beginRun_doneIe : s.beginRun.doneIe = s.doneIe := rfl
@[simp] theorem State.beginRun_errIe : s.beginRun.errIe = s.errIe := rfl
@[simp] theorem State.beginRun_pb : s.beginRun.pb = s.pb := rfl
@[simp] theorem State.beginRun_pbLastBlock : s.beginRun.pbLastBlock = s.pbLastBlock := rfl
@[simp] theorem State.beginRun_hresp : s.beginRun.hresp = s.hresp := rfl
@[simp] theorem State.beginRun_agenda : s.beginRun.agenda = s.agenda := rfl
@[simp] theorem State.beginRun_thereafter : s.beginRun.thereafter = s.thereafter := rfl
@[simp] theorem State.beginRun_draws : s.beginRun.draws = s.draws := rfl
@[simp] theorem State.beginRun_pbBytes : s.beginRun.pbBytes = s.pbBytes := rfl

/-! softReset -/

@[simp] theorem State.softReset_hs : s.softReset.hs = s.hs := rfl
@[simp] theorem State.softReset_wv : s.softReset.wv = s.wv := rfl
@[simp] theorem State.softReset_w : s.softReset.w = s.w := rfl
@[simp] theorem State.softReset_phase : s.softReset.phase = Phase.idle := rfl
@[simp] theorem State.softReset_idx : s.softReset.idx = 0#8 := rfl
@[simp] theorem State.softReset_ptr : s.softReset.ptr = 0#64 := rfl
@[simp] theorem State.softReset_blk : s.softReset.blk = 0#64 := rfl
@[simp] theorem State.softReset_nblk : s.softReset.nblk = 0#64 := rfl
@[simp] theorem State.softReset_busy : s.softReset.busy = false := rfl
@[simp] theorem State.softReset_done : s.softReset.done = false := rfl
@[simp] theorem State.softReset_err : s.softReset.err = false := rfl
@[simp] theorem State.softReset_errcode : s.softReset.errcode = 0#4 := rfl
@[simp] theorem State.softReset_len : s.softReset.len = s.len := rfl
@[simp] theorem State.softReset_doneIe : s.softReset.doneIe = s.doneIe := rfl
@[simp] theorem State.softReset_errIe : s.softReset.errIe = s.errIe := rfl
@[simp] theorem State.softReset_pb : s.softReset.pb = s.pb := rfl
@[simp] theorem State.softReset_pbLastBlock : s.softReset.pbLastBlock = s.pbLastBlock := rfl
@[simp] theorem State.softReset_hresp : s.softReset.hresp = s.hresp := rfl
@[simp] theorem State.softReset_agenda : s.softReset.agenda = s.agenda := rfl
@[simp] theorem State.softReset_thereafter : s.softReset.thereafter = s.thereafter := rfl
@[simp] theorem State.softReset_draws : s.softReset.draws = s.draws := rfl
@[simp] theorem State.softReset_pbBytes : s.softReset.pbBytes = s.pbBytes := rfl

/-! hardReset -/

@[simp] theorem State.hardReset_hs : s.hardReset.hs = freeWords 8 s.draws := rfl
@[simp] theorem State.hardReset_wv : s.hardReset.wv = freeWords 8 (s.draws + 8) := rfl
@[simp] theorem State.hardReset_w : s.hardReset.w = freeWords 64 (s.draws + 16) := rfl
@[simp] theorem State.hardReset_phase : s.hardReset.phase = State.reset.phase := rfl
@[simp] theorem State.hardReset_idx : s.hardReset.idx = State.reset.idx := rfl
@[simp] theorem State.hardReset_ptr : s.hardReset.ptr = State.reset.ptr := rfl
@[simp] theorem State.hardReset_blk : s.hardReset.blk = State.reset.blk := rfl
@[simp] theorem State.hardReset_nblk : s.hardReset.nblk = State.reset.nblk := rfl
@[simp] theorem State.hardReset_busy : s.hardReset.busy = State.reset.busy := rfl
@[simp] theorem State.hardReset_done : s.hardReset.done = State.reset.done := rfl
@[simp] theorem State.hardReset_err : s.hardReset.err = State.reset.err := rfl
@[simp] theorem State.hardReset_errcode : s.hardReset.errcode = State.reset.errcode := rfl
@[simp] theorem State.hardReset_len : s.hardReset.len = State.reset.len := rfl
@[simp] theorem State.hardReset_doneIe : s.hardReset.doneIe = State.reset.doneIe := rfl
@[simp] theorem State.hardReset_errIe : s.hardReset.errIe = State.reset.errIe := rfl
@[simp] theorem State.hardReset_pb : s.hardReset.pb = State.reset.pb := rfl
@[simp] theorem State.hardReset_pbLastBlock : s.hardReset.pbLastBlock = s.pbLastBlock := rfl
@[simp] theorem State.hardReset_hresp : s.hardReset.hresp = State.reset.hresp := rfl
@[simp] theorem State.hardReset_agenda : s.hardReset.agenda = s.agenda := rfl
@[simp] theorem State.hardReset_thereafter : s.hardReset.thereafter = s.thereafter := rfl
@[simp] theorem State.hardReset_draws : s.hardReset.draws = s.draws + 80 := rfl
@[simp] theorem State.hardReset_pbBytes : s.hardReset.pbBytes = s.pbBytes := rfl

/-! takeTurn -/

@[simp] theorem State.takeTurn_hs : s.takeTurn.hs = s.hs := rfl
@[simp] theorem State.takeTurn_wv : s.takeTurn.wv = s.wv := rfl
@[simp] theorem State.takeTurn_w : s.takeTurn.w = s.w := rfl
@[simp] theorem State.takeTurn_phase : s.takeTurn.phase = s.phase := rfl
@[simp] theorem State.takeTurn_idx : s.takeTurn.idx = s.idx := rfl
@[simp] theorem State.takeTurn_ptr : s.takeTurn.ptr = s.ptr := rfl
@[simp] theorem State.takeTurn_blk : s.takeTurn.blk = s.blk := rfl
@[simp] theorem State.takeTurn_nblk : s.takeTurn.nblk = s.nblk := rfl
@[simp] theorem State.takeTurn_busy : s.takeTurn.busy = s.busy := rfl
@[simp] theorem State.takeTurn_done : s.takeTurn.done = s.done := rfl
@[simp] theorem State.takeTurn_err : s.takeTurn.err = s.err := rfl
@[simp] theorem State.takeTurn_errcode : s.takeTurn.errcode = s.errcode := rfl
@[simp] theorem State.takeTurn_len : s.takeTurn.len = s.len := rfl
@[simp] theorem State.takeTurn_doneIe : s.takeTurn.doneIe = s.doneIe := rfl
@[simp] theorem State.takeTurn_errIe : s.takeTurn.errIe = s.errIe := rfl
@[simp] theorem State.takeTurn_pb : s.takeTurn.pb = s.pb := rfl
@[simp] theorem State.takeTurn_pbLastBlock : s.takeTurn.pbLastBlock = s.pbLastBlock := rfl
@[simp] theorem State.takeTurn_hresp : s.takeTurn.hresp = s.hresp := rfl
@[simp] theorem State.takeTurn_agenda : s.takeTurn.agenda = s.agenda.tail := rfl
@[simp] theorem State.takeTurn_thereafter : s.takeTurn.thereafter = s.thereafter := rfl
@[simp] theorem State.takeTurn_draws : s.takeTurn.draws = s.draws := rfl
@[simp] theorem State.takeTurn_pbBytes : s.takeTurn.pbBytes = s.pbBytes := rfl

/-! placeTurn -/

@[simp] theorem State.placeTurn_hs (t : Turn) : (s.placeTurn t).hs = s.hs := rfl
@[simp] theorem State.placeTurn_wv (t : Turn) : (s.placeTurn t).wv = s.wv := rfl
@[simp] theorem State.placeTurn_w (t : Turn) : (s.placeTurn t).w = s.w := rfl
@[simp] theorem State.placeTurn_phase (t : Turn) : (s.placeTurn t).phase = s.phase := rfl
@[simp] theorem State.placeTurn_idx (t : Turn) : (s.placeTurn t).idx = s.idx := rfl
@[simp] theorem State.placeTurn_ptr (t : Turn) : (s.placeTurn t).ptr = s.ptr := rfl
@[simp] theorem State.placeTurn_blk (t : Turn) : (s.placeTurn t).blk = s.blk := rfl
@[simp] theorem State.placeTurn_nblk (t : Turn) : (s.placeTurn t).nblk = s.nblk := rfl
@[simp] theorem State.placeTurn_busy (t : Turn) : (s.placeTurn t).busy = s.busy := rfl
@[simp] theorem State.placeTurn_done (t : Turn) : (s.placeTurn t).done = s.done := rfl
@[simp] theorem State.placeTurn_err (t : Turn) : (s.placeTurn t).err = s.err := rfl
@[simp] theorem State.placeTurn_errcode (t : Turn) : (s.placeTurn t).errcode = s.errcode := rfl
@[simp] theorem State.placeTurn_len (t : Turn) : (s.placeTurn t).len = s.len := rfl
@[simp] theorem State.placeTurn_doneIe (t : Turn) : (s.placeTurn t).doneIe = s.doneIe := rfl
@[simp] theorem State.placeTurn_errIe (t : Turn) : (s.placeTurn t).errIe = s.errIe := rfl
@[simp] theorem State.placeTurn_pb (t : Turn) : (s.placeTurn t).pb = s.pb := rfl
@[simp] theorem State.placeTurn_pbLastBlock (t : Turn) : (s.placeTurn t).pbLastBlock = s.pbLastBlock := rfl
@[simp] theorem State.placeTurn_hresp (t : Turn) : (s.placeTurn t).hresp = s.hresp := rfl
@[simp] theorem State.placeTurn_agenda (t : Turn) : (s.placeTurn t).agenda = t :: s.agenda := rfl
@[simp] theorem State.placeTurn_thereafter (t : Turn) :
    (s.placeTurn t).thereafter = s.thereafter := rfl
@[simp] theorem State.placeTurn_draws (t : Turn) : (s.placeTurn t).draws = s.draws := rfl
@[simp] theorem State.placeTurn_pbBytes (t : Turn) : (s.placeTurn t).pbBytes = s.pbBytes := rfl

end Sys2Proof.Machine
end

