-- ==== Sys2Proof/Laws/Exec.lean ====
section
/-! SUPPORT. For each shared operation, everything it can do: the proofs cite these lemmas and do not
unfold the operations. -/

namespace Sys2Proof.Machine

/-- PB_BYTES lies in 64 .. 2^32 (00_scope.md R8). -/
theorem State.pbBytes_bounds (s : State) : 64 ≤ s.pbBytes ∧ s.pbBytes ≤ 2 ^ 32 := by
  have := s.pbLastBlock.isLt
  simp only [State.pbBytes]; omega

/-- PB_BYTES is a multiple of 64 (R8). -/
theorem State.pbBytes_mod (s : State) : s.pbBytes % 64 = 0 := by simp [State.pbBytes]

/-- What appendPad answers in range. -/
theorem appendPad_next (b : Byte) {s : State} (h : s.ptr.toNat < s.pbBytes) :
    appendPad b s = .next ({ s with
      pb := s.pb.set s.ptr.toNat b
      ptr := s.ptr + 1#64
      phase := if (s.ptr + 1#64).toNat % 64 = 56 then Phase.padLen else Phase.padZero
      idx := 0#8 }) := by
  simp only [appendPad, if_pos h]; rfl

/-- What appendPad answers out of range. -/
theorem appendPad_fault (b : Byte) {s : State} (h : ¬s.ptr.toNat < s.pbBytes) :
    appendPad b s = .fault .pbOutOfRange := by simp only [appendPad, if_neg h]

/-- The three things a START can do (44_host_interface.md R196, 60_exceptions.md R223). -/
theorem State.start_cases (s : State) :
    (s.busy = true ∧ s.start = s) ∨
    (s.busy = false ∧ ∃ c, (c = 1#4 ∨ c = 2#4) ∧ s.start = s.clearForStart.raiseErr c) ∨
    (s.busy = false ∧ s.len.toNat < 2 ^ 61 ∧ pbLen s.len.toNat ≤ s.pbBytes ∧
      s.start = s.clearForStart.beginRun) := by
  by_cases hb : s.busy = true
  · exact .inl ⟨hb, by simp [State.start, hb]⟩
  · have hb' : s.busy = false := by simpa using hb
    by_cases h1 : 2 ^ 61 ≤ s.len.toNat
    · refine .inr (.inl ⟨hb', 1#4, .inl rfl, ?_⟩)
      unfold State.start; rw [if_neg hb, if_pos h1]
    · by_cases h2 : s.pbBytes < pbLen s.len.toNat
      · refine .inr (.inl ⟨hb', 2#4, .inr rfl, ?_⟩)
        unfold State.start; rw [if_neg hb, if_neg h1, if_pos h2]
      · refine .inr (.inr ⟨hb', by omega, by omega, ?_⟩)
        unfold State.start; rw [if_neg hb, if_neg h1, if_neg h2]

/-- A CTRL write answers with the softly reset, the started or the same state, and OK(0) (R195). -/
theorem runCommand_next (data : Word) (s : State) :
    ∃ t, runCommand data s = .next (t.respondOk 0#32) ∧
      ((t = s.softReset ∧ commandOf data = .sreset) ∨ (t = s.start ∧ commandOf data = .start) ∨
        (t = s ∧ commandOf data = .nop)) := by
  unfold runCommand
  cases h : commandOf data
  · exact ⟨_, rfl, .inl ⟨rfl, rfl⟩⟩
  · exact ⟨_, rfl, .inr (.inl ⟨rfl, rfl⟩)⟩
  · exact ⟨_, rfl, .inr (.inr ⟨rfl, rfl⟩)⟩

/-- Which addresses name no register (R225 causes 1 and 2). -/
theorem regNamed_eq_none_iff (addr : Word) :
    regNamed addr = none ↔ (addr.toNat / 256 ≠ 0 ∨ addr.toNat % 4 ≠ 0) := by
  have h := addr.isLt
  have e1 : addr.extractLsb' 8 24 = 0#24 ↔ addr.toNat / 256 = 0 := by
    rw [← BitVec.toNat_inj]; simp [BitVec.extractLsb'_toNat, Nat.shiftRight_eq_div_pow]; omega
  have e2 : addr.extractLsb' 0 2 = 0#2 ↔ addr.toNat % 4 = 0 := by
    rw [← BitVec.toNat_inj]; simp [BitVec.extractLsb'_toNat]
  simp only [regNamed, regOffset, Option.map_eq_none_iff, e1, e2]
  split
  · simp_all
  · simp_all; omega

/-- A legal REG address, through its offset. -/
theorem regNamed_ofNat {off : Nat} (h : off < 256) (h4 : off % 4 = 0) :
    regNamed (BitVec.ofNat 32 off) = some (regAt (BitVec.ofNat 8 off)) := by
  have e1 : (BitVec.ofNat 32 off).extractLsb' 8 24 = 0#24 := by
    rw [← BitVec.toNat_inj]
    simp [BitVec.extractLsb'_toNat, Nat.shiftRight_eq_div_pow]; omega
  have e2 : (BitVec.ofNat 32 off).extractLsb' 0 2 = 0#2 := by
    rw [← BitVec.toNat_inj]; simp [BitVec.extractLsb'_toNat]; omega
  have e3 : (BitVec.ofNat 32 off).extractLsb' 0 8 = BitVec.ofNat 8 off := by
    rw [← BitVec.toNat_inj]; simp [BitVec.extractLsb'_toNat]
  simp [regNamed, regOffset, e1, e2, e3]

/-- An address that names a register is a multiple of 4 below 256. -/
theorem regNamed_some_elim {addr : Word} {r : Reg} (h : regNamed addr = some r) :
    ∃ off, off < 256 ∧ off % 4 = 0 ∧ addr = BitVec.ofNat 32 off ∧ r = regAt (BitVec.ofNat 8 off) := by
  have hn := (not_congr (regNamed_eq_none_iff addr)).mp (by simp [h])
  have ha := addr.isLt
  refine ⟨addr.toNat, by omega, by omega, by simp, ?_⟩
  have := regNamed_ofNat (off := addr.toNat) (by omega) (by omega)
  simp_all

/-- The byte of PB a MSG address names. -/
theorem State.msgIndex_eq (s : State) (addr : Word) :
    s.msgIndex addr = if addr.toNat < s.pbBytes then some addr.toNat else none := rfl

/-- Only a DIGESTi read can move the draw counter. -/
theorem State.regValue_draws (s : State) (r : Reg) :
    (s.regValue r).2 = s.draws ∨ ((s.regValue r).2 = s.draws + 1 ∧ s.done = false) := by
  cases r with
  | digest i => cases h : s.done <;> simp [State.regValue, h]
  | _ => exact .inl rfl

/-- What fetch gives in a state that holds no reserved code: the decoded turn (43_sequencer.md R170). -/
theorem fetch_of_admits {s : State} (h : s.Admits) :
    ∃ uop, decodeUop s.seq = .ok uop ∧
      fetch s = match s.nextTurn with
        | .core => .run (if s.busy then uop else .idle)
        | .request w => .run (decodeHreq w)
        | .command w => .run (decodeCtrlw w)
        | .powerOn => .powerOn := by
  obtain ⟨h1, h2⟩ := h
  have hlt : ¬2 < s.errcode.toNat := by omega
  cases hd : decodeUop s.seq with
  | error e => simp [State.SeqOk, hd, Except.toOption] at h2
  | ok uop =>
    refine ⟨uop, rfl, ?_⟩
    unfold fetch State.orRefuse
    cases s.nextTurn <;> simp [hlt, hd]

/-- The commands by the bits that select them (44_host_interface.md R195). -/
theorem commandOf_bits (d : Word) :
    commandOf d = if d.getLsbD 1 then .sreset else if d.getLsbD 0 then .start else .nop := by
  have bit (k : Nat) : d.extractLsb' k 1 = 1#1 ↔ d.getLsbD k = true := by
    constructor
    · intro h; simpa using congrArg (·.getLsbD 0) h
    · intro h
      apply BitVec.eq_of_getLsbD_eq
      intro i hi
      obtain rfl : i = 0 := by omega
      simpa using h
  simp only [commandOf, bit]

/-- The writable registers, from their addresses (10_state.md R39). -/
theorem regNamed_writable :
    regNamed 0x00#32 = some .ctrl ∧ regNamed 0x08#32 = some .lenLo ∧
    regNamed 0x0C#32 = some .lenHi ∧ regNamed 0x10#32 = some .irqen := by decide

/-- The addresses of the writable registers, from the registers. -/
theorem regNamed_writable_elim {addr : Word} {r : Reg} (h : regNamed addr = some r) :
    (r = .ctrl → addr = 0x00#32) ∧ (r = .lenLo → addr = 0x08#32) ∧
    (r = .lenHi → addr = 0x0C#32) ∧ (r = .irqen → addr = 0x10#32) := by
  obtain ⟨off, h1, h2, rfl, rfl⟩ := regNamed_some_elim h
  obtain ⟨k, rfl⟩ : ∃ k, off = 4 * k := ⟨off / 4, by omega⟩
  have key : ∀ k, k < 64 →
      (regAt (BitVec.ofNat 8 (4 * k)) = .ctrl → BitVec.ofNat 32 (4 * k) = 0x00#32) ∧
      (regAt (BitVec.ofNat 8 (4 * k)) = .lenLo → BitVec.ofNat 32 (4 * k) = 0x08#32) ∧
      (regAt (BitVec.ofNat 8 (4 * k)) = .lenHi → BitVec.ofNat 32 (4 * k) = 0x0C#32) ∧
      (regAt (BitVec.ofNat 8 (4 * k)) = .irqen → BitVec.ofNat 32 (4 * k) = 0x10#32) := by decide
  exact key k (by omega)

/-- Eight bytes. -/
@[simp] theorem be64_length (v : BitVec 64) : (be64 v).length = 8 := by simp [be64]

/-- Byte j of a 64-bit value, most significant first (20_memory.md R63). -/
theorem be64_getElem? (v : BitVec 64) {j : Nat} (h : j < 8) :
    (be64 v)[j]? = some (v.extractLsb' (56 - 8 * j) 8) := by simp [be64, h]

/-- The bit length is 8·L modulo 2^64 (40_padding.md R100). -/
theorem bitLen_eq (l : BitVec 64) : bitLen l = BitVec.ofNat 64 (8 * l.toNat) := by
  have e : BitVec.ofNat 64 (8 * l.toNat) = l <<< 3 := by
    rw [← BitVec.toNat_inj]; simp [Nat.shiftLeft_eq, Nat.mul_comm]
  rw [e]
  apply BitVec.eq_of_getLsbD_eq
  intro i hi
  simp only [bitLen, BitVec.getLsbD_append, BitVec.getLsbD_shiftLeft, BitVec.getLsbD_extractLsb']
  by_cases h : i < 3
  · simp [h]
  · simp [h, hi, show i - 3 < 61 by omega]

/-- What PAD_LEN answers in range. -/
theorem execPadLen_next {s : State} (h : s.ptr.toNat + 8 ≤ s.pbBytes) :
    execPadLen s = .next { s with
      pb := s.pb.setBytes s.ptr.toNat (be64 (bitLen s.len))
      nblk := (s.ptr + 8#64) >>> 6
      ptr := s.ptr + 8#64
      phase := Phase.schedLoad
      idx := 0#8 } := by
  simp only [execPadLen, if_pos h]; rfl

/-- What SCHED_LOAD answers in range. -/
theorem execSchedLoad_next {s : State} {t : BitVec 8} (ht : t.toNat < 16)
    (h : s.blockWordAddr t.toNat + 4 ≤ s.pbBytes) :
    execSchedLoad t s = .next { s with
      w := s.w.set t.toNat (s.pb.readWord (s.blockWordAddr t.toNat) s.draws).1
      draws := (s.pb.readWord (s.blockWordAddr t.toNat) s.draws).2
      phase := if t.toNat < 15 then Phase.schedLoad else Phase.schedExp
      idx := if t.toNat < 15 then t + 1#8 else 16#8 } := by
  simp only [execSchedLoad, dif_pos ht, if_pos h]
  split <;> rfl

/-- What SCHED_EXP answers. -/
theorem execSchedExp_next {s : State} {t : BitVec 8} (ht : 16 ≤ t.toNat ∧ t.toNat < 64) :
    execSchedExp t s = .next { s with
      w := s.w.set t.toNat (schedSum s.w[t.toNat - 2] s.w[t.toNat - 7] s.w[t.toNat - 15]
        s.w[t.toNat - 16])
      phase := if t.toNat < 63 then Phase.schedExp else Phase.wvInit
      idx := if t.toNat < 63 then t + 1#8 else 0#8 } := by
  simp only [execSchedExp, dif_pos ht]
  split <;> rfl

/-- What ROUND answers. -/
theorem execRound_next {s : State} {t : BitVec 8} (ht : t.toNat < 64) :
    execRound t s = .next { s with
      wv := roundOf s.wv kRom[t.toNat] s.w[t.toNat]
      phase := if t.toNat < 63 then Phase.round else Phase.accum
      idx := if t.toNat < 63 then t + 1#8 else 0#8 } := by
  simp only [execRound, dif_pos ht]
  split <;> rfl

/-- The micro-operations by the sequencer state that selects them (30_encoding.md R82). -/
theorem decodeUop_uopWord_elim {p q : BitVec 8} {u : Instr} (h : decodeUop (uopWord p q) = .ok u) :
    (u = .idle ∧ p = Phase.idle ∧ q = 0#8) ∨ (u = .initH ∧ p = Phase.initH ∧ q = 0#8) ∨
    (u = .padMark ∧ p = Phase.padMark ∧ q = 0#8) ∨ (u = .padZero ∧ p = Phase.padZero ∧ q = 0#8) ∨
    (u = .padLen ∧ p = Phase.padLen ∧ q = 0#8) ∨
    (u = .schedLoad q ∧ p = Phase.schedLoad ∧ q.toNat < 16) ∨
    (u = .schedExp q ∧ p = Phase.schedExp ∧ 16 ≤ q.toNat ∧ q.toNat < 64) ∨
    (u = .wvInit ∧ p = Phase.wvInit ∧ q = 0#8) ∨
    (u = .round q ∧ p = Phase.round ∧ q.toNat < 64) ∨
    (u = .accum ∧ p = Phase.accum ∧ q = 0#8) ∨
    (u = .blockNext ∧ p = Phase.blockNext ∧ q = 0#8) := by
  rw [decodeUop_uopWord] at h
  repeat' split at h
  all_goals first | (injection h with h; subst h; simp_all) | simp at h

end Sys2Proof.Machine
end

