-- ==== Sys2Proof/Laws/Execution.lean ====
section
/-! SUPPORT. The turns a state holds play no part in what a step does but to be taken, so an execution
under a schedule is a run with that schedule as its agenda. -/

namespace Sys2Proof.Machine

/-- The register values do not depend on the agenda. -/
theorem State.regValue_agenda (s : State) (a : List Turn) (r : Reg) :
    ({ s with agenda := a } : State).regValue r = s.regValue r := by
  cases r <;> rfl

/-- START does not read the agenda. -/
theorem State.start_agenda (s : State) (a : List Turn) :
    ({ s with agenda := a } : State).start = { s.start with agenda := a } := by
  have hp : ({ s with agenda := a } : State).pbBytes = s.pbBytes := rfl
  simp only [State.start, hp]
  by_cases hb : s.busy = true
  · simp only [if_pos hb]
  by_cases h1 : 2 ^ 61 ≤ s.len.toNat
  · simp only [if_neg hb, if_pos h1]; rfl
  by_cases h2 : s.pbBytes < pbLen s.len.toNat
  · simp only [if_neg hb, if_neg h1, if_pos h2]; rfl
  · simp only [if_neg hb, if_neg h1, if_neg h2]; rfl

/-- Appending a byte does not read the agenda. -/
theorem appendPad_agenda (b : Byte) {s t : State} (a : List Turn) (h : appendPad b s = .next t) :
    appendPad b { s with agenda := a } = .next { t with agenda := a } := by
  by_cases hl : s.ptr.toNat < s.pbBytes
  · rw [appendPad_next b hl, Host.Outcome.next.injEq] at h
    subst h
    exact appendPad_next (s := { s with agenda := a }) b hl
  · rw [appendPad_fault b hl] at h; cases h

/-- The command of a CTRL write does not read the agenda. -/
theorem runCommand_agenda (d : Word) {s t : State} (a : List Turn) (h : runCommand d s = .next t) :
    runCommand d { s with agenda := a } = .next { t with agenda := a } := by
  unfold runCommand at h ⊢
  cases hc : commandOf d <;> simp only [hc, execCtrlSreset, execCtrlStart, execCtrlNop,
    Host.Outcome.next.injEq] at h ⊢ <;> subst h
  · rfl
  · rw [State.start_agenda]; rfl
  · rfl

/-- No operation reads or writes the agenda. -/
theorem exec_agenda (i : Instr) {s t : State} (a : List Turn) (h : exec i s = .next t) :
    exec i { s with agenda := a } = .next { t with agenda := a } := by
  cases i with
  | padMark => exact appendPad_agenda _ a h
  | padZero => exact appendPad_agenda _ a h
  | padLen =>
    simp only [exec] at h ⊢
    by_cases hl : s.ptr.toNat + 8 ≤ s.pbBytes
    · rw [execPadLen_next hl] at h
      rw [execPadLen_next (s := { s with agenda := a }) hl, ← Host.Outcome.next.inj h]
    · simp only [execPadLen, if_neg hl] at h; cases h
  | schedLoad n =>
    simp only [exec] at h ⊢
    by_cases ht : n.toNat < 16
    · by_cases hl : s.blockWordAddr n.toNat + 4 ≤ s.pbBytes
      · rw [execSchedLoad_next ht hl] at h
        rw [execSchedLoad_next (s := { s with agenda := a }) ht hl, ← Host.Outcome.next.inj h]
        rfl
      · simp only [execSchedLoad, dif_pos ht, if_neg hl] at h; cases h
    · simp only [execSchedLoad, dif_neg ht] at h; cases h
  | schedExp n =>
    simp only [exec] at h ⊢
    by_cases ht : 16 ≤ n.toNat ∧ n.toNat < 64
    · rw [execSchedExp_next ht] at h
      rw [execSchedExp_next (s := { s with agenda := a }) ht, ← Host.Outcome.next.inj h]
    · simp only [execSchedExp, dif_neg ht] at h; cases h
  | round n =>
    simp only [exec] at h ⊢
    by_cases ht : n.toNat < 64
    · rw [execRound_next ht] at h
      rw [execRound_next (s := { s with agenda := a }) ht, ← Host.Outcome.next.inj h]
    · simp only [execRound, dif_neg ht] at h; cases h
  | blockNext =>
    rw [← Host.Outcome.next.inj h]
    by_cases hb : (s.blk + 1#64).toNat < s.nblk.toNat <;>
      simp only [exec, execBlockNext, hb, if_true, if_false] <;> rfl
  | regRead addr d =>
    simp only [exec, execRegRead] at h ⊢
    cases hr : regNamed addr with
    | none => rw [hr] at h; rw [← Host.Outcome.next.inj h]; rfl
    | some r =>
      rw [hr] at h; rw [← Host.Outcome.next.inj h]
      simp only [State.regValue_agenda]; rfl
  | regWrite addr d =>
    simp only [exec, execRegWrite] at h ⊢
    cases hr : regNamed addr with
    | none => rw [hr] at h; rw [← Host.Outcome.next.inj h]; rfl
    | some r =>
      rw [hr] at h
      cases r with
      | ctrl => exact runCommand_agenda d a h
      | lenLo =>
        by_cases hb : s.busy = true
        · simp only [if_pos hb] at h ⊢; rw [← Host.Outcome.next.inj h]; rfl
        · simp only [if_neg hb] at h ⊢; rw [← Host.Outcome.next.inj h]; rfl
      | lenHi =>
        by_cases hb : s.busy = true
        · simp only [if_pos hb] at h ⊢; rw [← Host.Outcome.next.inj h]; rfl
        · simp only [if_neg hb] at h ⊢; rw [← Host.Outcome.next.inj h]; rfl
      | _ => rw [← Host.Outcome.next.inj h]; rfl
  | msgRead addr d =>
    simp only [exec, execMsgRead, show ({ s with agenda := a } : State).msgIndex addr =
      s.msgIndex addr from rfl] at h ⊢
    cases hx : s.msgIndex addr with
    | none => rw [hx] at h; rw [← Host.Outcome.next.inj h]; rfl
    | some k =>
      rw [hx] at h
      by_cases hb : s.busy = true
      · simp only [if_pos hb] at h ⊢; rw [← Host.Outcome.next.inj h]; rfl
      · simp only [if_neg hb] at h ⊢; rw [← Host.Outcome.next.inj h]; rfl
  | msgWrite addr d =>
    simp only [exec, execMsgWrite, show ({ s with agenda := a } : State).msgIndex addr =
      s.msgIndex addr from rfl] at h ⊢
    cases hx : s.msgIndex addr with
    | none => rw [hx] at h; rw [← Host.Outcome.next.inj h]; rfl
    | some k =>
      rw [hx] at h
      by_cases hb : s.busy = true
      · simp only [if_pos hb] at h ⊢; rw [← Host.Outcome.next.inj h]; rfl
      · simp only [if_neg hb] at h ⊢; rw [← Host.Outcome.next.inj h]; rfl
  | ctrlStart r =>
    simp only [exec, execCtrlStart, State.start_agenda]
    rw [← Host.Outcome.next.inj h]; rfl
  | _ => rw [← Host.Outcome.next.inj h]; rfl

/-- What fetch gives depends on the next turn alone, not on the turns after it. -/
theorem fetch_placeTurn (s : State) (a : List Turn) (u : Turn) :
    fetch ({ s with agenda := a }.placeTurn u) = fetch (s.placeTurn u) := rfl

/-- A step with a turn placed: the rest of the agenda is passed on. -/
theorem step_placeTurn {s t : State} (a : List Turn) (u : Turn)
    (h : step (s.placeTurn u) = .next t) :
    step ({ s with agenda := a }.placeTurn u) = .next { t with agenda := a } := by
  unfold step at h ⊢
  rw [fetch_placeTurn]
  cases hf : fetch (s.placeTurn u) with
  | run i => rw [hf] at h; exact exec_agenda (s := (s.placeTurn u).takeTurn) i a h
  | powerOn => rw [hf] at h; rw [← Host.Outcome.next.inj h]; rfl
  | refuse r => rw [hf] at h; cases h

/-- A run of k + 1 steps by its first step. -/
theorem run_succ (k : Nat) (s : State) :
    Sys2Proof.core.run (k + 1) s =
      match step s with
      | .next s' => Sys2Proof.core.run k s'
      | .fault f => .fault f
      | .refused r => .refused r := by
  show Host.Core.run _ _ _ = _
  have e : Sys2Proof.core.step s = step s := rfl
  simp only [Host.Core.run, e]
  cases step s <;> rfl

/-- k steps and then one more. -/
theorem run_add_one {k : Nat} {s t : State} (h : Sys2Proof.core.run k s = .next t) :
    Sys2Proof.core.run (k + 1) s = step t := by
  induction k generalizing s with
  | zero =>
    obtain rfl : s = t := Host.Outcome.next.inj h
    rw [run_succ]
    cases step s <;> rfl
  | succ k ih =>
    rw [run_succ] at h ⊢
    cases hs : step s with
    | next s' => rw [hs] at h; exact ih h
    | fault f => rw [hs] at h; cases h
    | refused r => rw [hs] at h; cases h

/-- One step further under a schedule. -/
theorem State.under_add_one {s t : State} {sched : Schedule} {n : Nat}
    (h : s.under sched n = .next t) :
    s.under sched (n + 1) = step (t.placeTurn (sched n)) := by
  simp only [State.under, h]

/-- An execution that has come to step n + 1 came to step n. -/
theorem State.under_pred {s t : State} {sched : Schedule} {n : Nat}
    (h : s.under sched (n + 1) = .next t) :
    ∃ u, s.under sched n = .next u ∧ step (u.placeTurn (sched n)) = .next t := by
  simp only [State.under] at h
  cases hu : s.under sched n with
  | next u => rw [hu] at h; exact ⟨u, rfl, h⟩
  | fault f => rw [hu] at h; cases h
  | refused r => rw [hu] at h; cases h

/-- An execution under a schedule is the run whose agenda begins with the schedule's turns. -/
theorem State.run_of_under {s t : State} {sched : Schedule} {n : Nat}
    (h : s.under sched n = .next t) (rest : List Turn) :
    Sys2Proof.core.run n { s with agenda := (List.range n).map sched ++ rest } =
      .next { t with agenda := rest } := by
  induction n generalizing t rest with
  | zero => obtain rfl : s = t := Host.Outcome.next.inj h; rfl
  | succ n ih =>
    obtain ⟨u, hu, hstep⟩ := State.under_pred h
    rw [List.range_succ, List.map_append, List.append_assoc, run_add_one (ih hu _)]
    exact step_placeTurn rest (sched n) hstep

/-- A schedule in which the core has infinitely many turns is core_fair from every state. -/
theorem coreFair_of_often {sched : Schedule} (s : State) (h : ∀ n, ∃ k, n ≤ k ∧ sched k = .core) :
    CoreFair sched s := fun _ => h

end Sys2Proof.Machine
end

