-- ==== Sys2Proof/Laws/PerInstr.lean ====
section
/-! SUPPORT. A statement about every operation as syntax: its word shows its row of the opcode table
(spec/opcode_table.json; 30_encoding.md R82, R83, R85). One lemma per constructor. -/

namespace Sys2Proof.Laws.TableRow

/-- The row's mask and match, in the format of the row. -/
def row : Instr → Code × Code
  | .idle => (.uop 0xFFFF#16, .uop 0x0000#16)
  | .initH => (.uop 0xFFFF#16, .uop 0x0100#16)
  | .padMark => (.uop 0xFFFF#16, .uop 0x0200#16)
  | .padZero => (.uop 0xFFFF#16, .uop 0x0300#16)
  | .padLen => (.uop 0xFFFF#16, .uop 0x0400#16)
  | .schedLoad _ => (.uop 0xFFF0#16, .uop 0x0500#16)
  | .schedExp _ => (.uop 0xFFC0#16, .uop 0x0600#16)
  | .wvInit => (.uop 0xFFFF#16, .uop 0x0700#16)
  | .round _ => (.uop 0xFFC0#16, .uop 0x0800#16)
  | .accum => (.uop 0xFFFF#16, .uop 0x0900#16)
  | .blockNext => (.uop 0xFFFF#16, .uop 0x0A00#16)
  | .regRead _ _ => (.hreq 0x30000000000000000#66, .hreq 0x00000000000000000#66)
  | .regWrite _ _ => (.hreq 0x30000000000000000#66, .hreq 0x10000000000000000#66)
  | .msgRead _ _ => (.hreq 0x30000000000000000#66, .hreq 0x20000000000000000#66)
  | .msgWrite _ _ => (.hreq 0x30000000000000000#66, .hreq 0x30000000000000000#66)
  | .ctrlSreset _ _ => (.ctrlw 0x00000002#32, .ctrlw 0x00000002#32)
  | .ctrlStart _ => (.ctrlw 0x00000003#32, .ctrlw 0x00000001#32)
  | .ctrlNop _ => (.ctrlw 0x00000003#32, .ctrlw 0x00000000#32)

/-- (w and mask) = match, for words of one format. -/
def selects : Code → Code × Code → Bool
  | .uop w, (.uop m, .uop v) => w &&& m == v
  | .hreq w, (.hreq m, .hreq v) => w &&& m == v
  | .ctrlw w, (.ctrlw m, .ctrlw v) => w &&& m == v
  | _, _ => false

/-- A well-formed operation's word has its row's match under its row's mask. -/
def Statement (i : Instr) : Prop := i.WellFormed → selects (encode i) (row i) = true

theorem idle : Statement .idle := fun _ => by decide
theorem initH : Statement .initH := fun _ => by decide
theorem padMark : Statement .padMark := fun _ => by decide
theorem padZero : Statement .padZero := fun _ => by decide
theorem padLen : Statement .padLen := fun _ => by decide
theorem wvInit : Statement .wvInit := fun _ => by decide
theorem accum : Statement .accum := fun _ => by decide
theorem blockNext : Statement .blockNext := fun _ => by decide

theorem schedLoad (t : BitVec 8) : Statement (.schedLoad t) := by
  revert t; unfold Statement; decide

theorem schedExp (t : BitVec 8) : Statement (.schedExp t) := by
  revert t; unfold Statement; decide

theorem round (t : BitVec 8) : Statement (.round t) := by
  revert t; unfold Statement; decide

/-- The kind of an HREQ word is what the mask of the HREQ rows leaves. -/
theorem hreqWord_kind (kind : BitVec 2) (addr data : Word) :
    hreqWord kind addr data &&& 0x30000000000000000#66 = kind ++ 0#64 := by
  apply BitVec.eq_of_getLsbD_eq
  intro i hi
  rw [BitVec.getLsbD_and, show 0x30000000000000000#66 = (3#2 ++ 0#64) by decide]
  simp only [hreqWord, BitVec.getLsbD_append]
  by_cases h : i < 64
  · simp [h]
  · have h1 : ¬i < 32 := by omega
    have h2 : ¬i - 32 < 32 := by omega
    simp only [h, h1, h2, if_false, Nat.sub_sub]
    obtain rfl | rfl : i = 64 ∨ i = 65 := by omega
    · simp
    · simp

theorem regRead (addr data : Word) : Statement (.regRead addr data) := fun _ => by
  simp only [selects, encode, row, hreqWord_kind]; decide

theorem regWrite (addr data : Word) : Statement (.regWrite addr data) := fun _ => by
  simp only [selects, encode, row, hreqWord_kind]; decide

theorem msgRead (addr data : Word) : Statement (.msgRead addr data) := fun _ => by
  simp only [selects, encode, row, hreqWord_kind]; decide

theorem msgWrite (addr data : Word) : Statement (.msgWrite addr data) := fun _ => by
  simp only [selects, encode, row, hreqWord_kind]; decide

/-- The two command bits of a CTRLW word, under any mask of them. -/
theorem ctrlWord_bits (r : BitVec 30) (a b : BitVec 1) (m : BitVec 2) :
    ctrlWord r a b &&& (0#30 ++ m) = 0#30 ++ ((a ++ b) &&& m) := by
  apply BitVec.eq_of_getLsbD_eq
  intro i hi
  simp only [ctrlWord, BitVec.getLsbD_and, BitVec.getLsbD_append]
  by_cases h : i < 2
  · obtain rfl | rfl : i = 0 ∨ i = 1 := by omega
    all_goals simp
  · simp [h]

theorem ctrlSreset (reserved : BitVec 30) (start : BitVec 1) :
    Statement (.ctrlSreset reserved start) := fun _ => by
  simp only [selects, encode, row]
  rw [show 0x00000002#32 = 0#30 ++ 2#2 by decide, ctrlWord_bits]
  have h : ∀ b : BitVec 1, (0#30 ++ ((1#1 ++ b) &&& 2#2) == 0#30 ++ 2#2) = true := by decide
  exact h start

theorem ctrlStart (reserved : BitVec 30) : Statement (.ctrlStart reserved) := fun _ => by
  simp only [selects, encode, row]
  rw [show 0x00000003#32 = 0#30 ++ 3#2 by decide, ctrlWord_bits]
  decide

theorem ctrlNop (reserved : BitVec 30) : Statement (.ctrlNop reserved) := fun _ => by
  simp only [selects, encode, row]
  rw [show 0x00000003#32 = 0#30 ++ 3#2 by decide, ctrlWord_bits]
  decide

end Sys2Proof.Laws.TableRow
end

