-- ==== Sys2Proof/Tests/Slice0.lean ====
section
/-! SUPPORT. Small tests of single steps, each expected value from the spec (95_test_vectors.md or the
rule named), and for every obligation with hypotheses a witness that meets them. -/

open Sys2Proof Sys2Proof.Machine

namespace Sys2Proof.Tests

/-- A part of the state an outcome gives, none where it stops. -/
def view {α : Type} (r : Result) (f : State → α) : Option α :=
  match r with
  | .next t => some (f t)
  | .fault _ | .refused _ => none

/-- Why an outcome stops. -/
def stop (r : Result) : Option (Fault ⊕ Refusal) :=
  match r with
  | .next _ => none
  | .fault f => some (.inl f)
  | .refused r => some (.inr r)

/-- A busy state at a point of the sequencer. -/
def busyAt (phase idx : BitVec 8) : State :=
  { State.reset with busy := true, phase := phase, idx := idx }

/-- A busy padding unit with this PTR and this length. -/
def padding (phase : BitVec 8) (ptr len : BitVec 64) : State :=
  { busyAt phase 0#8 with ptr := ptr, len := len }

/-- PB holds "abc", and L = 3. -/
def abc : State :=
  { State.reset with pb := [(0, 0x61#8), (1, 0x62#8), (2, 0x63#8)], len := 3#64 }

/-- A block of 64 written zero bytes. -/
def zeros : Memory := (List.range 64).map fun j => (j, 0x00#8)

/-- The initial hash values (10_state.md R49). -/
def iv : Vector Word 8 :=
  #v[0x6a09e667#32, 0xbb67ae85#32, 0x3c6ef372#32, 0xa54ff53a#32,
     0x510e527f#32, 0x9b05688c#32, 0x1f83d9ab#32, 0x5be0cd19#32]

/-- The working variables of "abc" after round 62 (D-ROUND). -/
def wv62 : Vector Word 8 :=
  #v[0xd39a2165#32, 0x04d24d6c#32, 0xb85e2ce9#32, 0xb6ae8fff#32,
     0xfb121210#32, 0x948d25b6#32, 0x961f4894#32, 0xb21bad3d#32]

/-- The working variables of "abc" after round 63 (D-ROUND). -/
def wv63 : Vector Word 8 :=
  #v[0x506e3058#32, 0xd39a2165#32, 0x04d24d6c#32, 0xb85e2ce9#32,
     0x5ef50f24#32, 0xfb121210#32, 0x948d25b6#32, 0x961f4894#32]

/-- The hash state of "abc" (V2). -/
def hsAbc : Vector Word 8 :=
  #v[0xba7816bf#32, 0x8f01cfea#32, 0x414140de#32, 0x5dae2223#32,
     0xb00361a3#32, 0x96177a9c#32, 0xb410ff61#32, 0xf20015ad#32]

/-- "abc" hashed: DONE = 1 (the end of P2, with IRQEN = 0). -/
def doneAbc : State := { abc with hs := hsAbc, done := true, nblk := 1#64 }

/-! ## Well-formedness: an ill-formed term for each check (30_encoding.md R82) -/

theorem test_wf_schedLoad : ¬(Instr.schedLoad 16#8).WellFormed ∧ (Instr.schedLoad 15#8).WellFormed := by
  decide
theorem test_wf_schedExp : ¬(Instr.schedExp 15#8).WellFormed ∧ ¬(Instr.schedExp 64#8).WellFormed ∧
    (Instr.schedExp 16#8).WellFormed ∧ (Instr.schedExp 63#8).WellFormed := by decide
theorem test_wf_round : ¬(Instr.round 64#8).WellFormed ∧ (Instr.round 63#8).WellFormed := by decide

/-! ## Decoding: the encoding line of each operation, written out bit by bit -/

theorem test_decode_idle : decodeUop 0b0000000000000000#16 = .ok .idle := by decide
theorem test_decode_initH : decodeUop 0b0000000100000000#16 = .ok .initH := by decide
theorem test_decode_padMark : decodeUop 0b0000001000000000#16 = .ok .padMark := by decide
theorem test_decode_padZero : decodeUop 0b0000001100000000#16 = .ok .padZero := by decide
theorem test_decode_padLen : decodeUop 0b0000010000000000#16 = .ok .padLen := by decide
theorem test_decode_schedLoad : decodeUop 0b0000010100001001#16 = .ok (.schedLoad 9#8) := by decide
theorem test_decode_schedExp : decodeUop 0b0000011000100001#16 = .ok (.schedExp 33#8) := by decide
theorem test_decode_wvInit : decodeUop 0b0000011100000000#16 = .ok .wvInit := by decide
theorem test_decode_round : decodeUop 0b0000100000010001#16 = .ok (.round 17#8) := by decide
theorem test_decode_accum : decodeUop 0b0000100100000000#16 = .ok .accum := by decide
theorem test_decode_blockNext : decodeUop 0b0000101000000000#16 = .ok .blockNext := by decide

/-- kind = bits 65:64, addr = bits 63:32, data = bits 31:0 (R83); the words are those of P1, P2. -/
theorem test_decode_hreq :
    decodeHreq 0b000000000000000000000000000000010000000000000000000000000000000000#66 =
      .regRead 0x04#32 0x00#32 ∧
    decodeHreq 0b010000000000000000000000000000100000000000000000000000000000000011#66 =
      .regWrite 0x08#32 0x03#32 ∧
    decodeHreq 0b100000000000000000000000000000001100000000000000000000000000000000#66 =
      .msgRead 0x03#32 0x00#32 ∧
    decodeHreq 0b110000000000000000000000000000001000000000000000000000000001100011#66 =
      .msgWrite 0x02#32 0x63#32 := by decide

/-- SRESET = bit 1, START = bit 0 (R85). -/
theorem test_decode_ctrlw :
    decodeCtrlw 0b00000000000000000000000000000010#32 = .ctrlSreset 0#30 0#1 ∧
    decodeCtrlw 0b00000000000000000000000000000011#32 = .ctrlSreset 0#30 1#1 ∧
    decodeCtrlw 0b10000000000000000000000000000101#32 = .ctrlStart 0x20000001#30 ∧
    decodeCtrlw 0b00000000000000000000000000000100#32 = .ctrlNop 1#30 := by decide

/-! ## Functions -/

/-- T-SIG, row 61626380. -/
theorem test_sigma : smallSigma0 0x61626380#32 = 0x940e90ef#32 ∧
    smallSigma1 0x61626380#32 = 0x7da86405#32 ∧ bigSigma0 0x61626380#32 = 0x8dd59276#32 ∧
    bigSigma1 0x61626380#32 = 0xc0b865f2#32 := by decide

/-- T-SIG, row ffffffff: the shifts fill with zeros. -/
theorem test_sigma_shift : smallSigma0 0xffffffff#32 = 0x1fffffff#32 ∧
    smallSigma1 0xffffffff#32 = 0x003fffff#32 ∧ bigSigma0 0xffffffff#32 = 0xffffffff#32 := by decide

/-- T-CHMAJ, row f0f0f0f0. -/
theorem test_ch_maj : ch 0xf0f0f0f0#32 0xcccccccc#32 0xaaaaaaaa#32 = 0xcacacaca#32 ∧
    maj 0xf0f0f0f0#32 0xcccccccc#32 0xaaaaaaaa#32 = 0xe8e8e8e8#32 := by decide

/-- V5: the ends of K. -/
theorem test_k : kRom[0] = 0x428a2f98#32 ∧ kRom[63] = 0xc67178f2#32 := by decide

/-- D-PAD: Z(L) and PBLEN(L) at 55, 56 and 120. -/
theorem test_padding_lengths : zeroCount 55 = 0 ∧ pbLen 55 = 64 ∧ zeroCount 56 = 63 ∧ pbLen 56 = 128 ∧
    zeroCount 120 = 63 ∧ pbLen 120 = 192 := by decide

/-- D-PAD: steps(L) at 0, 3 and 56. -/
theorem test_steps : steps 0 = 189 ∧ steps 3 = 186 ∧ steps 56 = 328 := by decide

/-! ## The micro-operations -/

theorem test_idle : view (exec .idle doneAbc) (fun t => (t.phase, t.busy, t.done)) =
    some (0x00#8, false, true) := by decide

/-- V5. -/
theorem test_initH : view (exec .initH (busyAt Phase.initH 0#8))
    (fun t => (t.hs[0], t.hs[7], t.phase)) = some (0x6a09e667#32, 0x5be0cd19#32, 0x02#8) := by decide

/-- D-PAD, L = 3. -/
theorem test_padMark : view (exec .padMark (padding Phase.padMark 3#64 3#64))
    (fun t => (t.pb, t.ptr, t.phase)) = some ([(3, 0x80#8)], 4#64, 0x03#8) := by decide

/-- D-PAD, L = 55: straight to PAD_LEN. -/
theorem test_padMark_noFill : view (exec .padMark (padding Phase.padMark 55#64 55#64))
    (fun t => (t.pb, t.ptr, t.phase)) = some ([(55, 0x80#8)], 56#64, 0x04#8) := by decide

/-- D-PAD, L = 3, the last zero. -/
theorem test_padZero : view (exec .padZero (padding Phase.padZero 55#64 3#64))
    (fun t => (t.pb, t.ptr, t.phase)) = some ([(55, 0x00#8)], 56#64, 0x04#8) := by decide

/-- R105: any other zero stays in PAD_ZERO. -/
theorem test_padZero_again : view (exec .padZero (padding Phase.padZero 64#64 56#64))
    (fun t => (t.pb, t.ptr, t.phase)) = some ([(64, 0x00#8)], 65#64, 0x03#8) := by decide

/-- D-PAD, L = 3. -/
theorem test_padLen : view (exec .padLen (padding Phase.padLen 56#64 3#64))
    (fun t => (t.pb.map Prod.snd, t.nblk, t.ptr)) =
      some ([0#8, 0#8, 0#8, 0#8, 0#8, 0#8, 0#8, 0x18#8], 1#64, 64#64) := by decide

/-- D-PAD, L = 56. -/
theorem test_padLen_twoBlocks : view (exec .padLen (padding Phase.padLen 120#64 56#64))
    (fun t => (t.pb.drop 6, t.nblk, t.ptr, t.phase)) =
      some ([(126, 0x01#8), (127, 0xc0#8)], 2#64, 128#64, 0x05#8) := by decide

/-- D-SCHED: W[0] of "abc". -/
theorem test_schedLoad : view (exec (.schedLoad 0#8)
    { busyAt Phase.schedLoad 0#8 with pb := abc.pb ++ [(3, 0x80#8)] })
    (fun t => (t.w[0], t.phase, t.idx, t.draws)) = some (0x61626380#32, 0x05#8, 1#8, 0) := by decide

/-- D-SCHED: W[15] of a later block (blk = 1) is bitlen[31:0]; the next step is SCHED_EXP 16. -/
theorem test_schedLoad_last : view (exec (.schedLoad 15#8)
    { busyAt Phase.schedLoad 15#8 with
      pb := [(124, 0#8), (125, 0#8), (126, 0x01#8), (127, 0xc0#8)], blk := 1#64 })
    (fun t => (t.w[15], t.phase, t.idx)) = some (0x000001c0#32, 0x06#8, 16#8) := by decide

/-- D-SCHED: W[18] = σ1(W[16]) when the other three addends are 0. -/
theorem test_schedExp : view (exec (.schedExp 18#8) { busyAt Phase.schedExp 18#8 with
    w := State.reset.w.set 16 0x61626380#32 })
    (fun t => (t.w[18], t.phase, t.idx)) = some (0x7da86405#32, 0x06#8, 19#8) := by decide

/-- R125 with T-SIG: σ1(0x1) + ffffffff + σ0(0x1) + ffffffff wraps; 63 is the last index. -/
theorem test_schedExp_wraps : view (exec (.schedExp 63#8) { busyAt Phase.schedExp 63#8 with
    w := (((State.reset.w.set 61 1#32).set 56 0xffffffff#32).set 48 1#32).set 47 0xffffffff#32 })
    (fun t => (t.w[63], t.phase, t.idx)) = some (0x0200dffe#32, 0x07#8, 0#8) := by decide

/-- D-ACCUM: the working variables are loaded from HS, not from IV. -/
theorem test_wvInit : view (exec .wvInit { busyAt Phase.wvInit 0#8 with hs := hsAbc })
    (fun t => (t.wv, t.phase, t.idx)) = some (hsAbc, 0x08#8, 0#8) := by decide

/-- D-ROUND: round 0 of "abc". -/
theorem test_round : view (exec (.round 0#8) { busyAt Phase.round 0#8 with
    wv := iv, w := State.reset.w.set 0 0x61626380#32 }) (fun t => (t.wv, t.phase, t.idx)) =
    some (#v[0x5d6aebcd#32, 0x6a09e667#32, 0xbb67ae85#32, 0x3c6ef372#32,
      0xfa2a4622#32, 0x510e527f#32, 0x9b05688c#32, 0x1f83d9ab#32], 0x08#8, 1#8) := by decide

/-- D-ROUND: round 63 of "abc". -/
theorem test_round_last : view (exec (.round 63#8) { busyAt Phase.round 63#8 with
    wv := wv62, w := State.reset.w.set 63 0x12b1edeb#32 }) (fun t => (t.wv, t.phase, t.idx)) =
    some (wv63, 0x09#8, 0#8) := by decide

/-- D-ACCUM: "abc"; HS[1] wraps. -/
theorem test_accum : view (exec .accum { busyAt Phase.accum 0#8 with hs := iv, wv := wv63 })
    (fun t => (t.hs, t.phase)) = some (hsAbc, 0x0A#8) := by decide

/-- D-SEQ, NBLK = 2: the first BLOCK_NEXT. -/
theorem test_blockNext : view (exec .blockNext { busyAt Phase.blockNext 0#8 with nblk := 2#64 })
    (fun t => (t.blk, t.phase, t.busy, t.done)) = some (1#64, 0x05#8, true, false) := by decide

/-- D-SEQ, NBLK = 2: the second. -/
theorem test_blockNext_last : view (exec .blockNext
    { busyAt Phase.blockNext 0#8 with nblk := 2#64, blk := 1#64 })
    (fun t => (t.blk, t.phase, t.busy, t.done)) = some (2#64, 0x00#8, false, true) := by decide

/-! ## The host operations -/

/-- D-HOST: STATUS of P2's end, and the digest of V6. -/
theorem test_regRead : view (exec (.regRead 0x04#32 0#32) { doneAbc with doneIe := true }) State.hresp =
      some (some ⟨false, 0x00000102#32⟩) ∧
    view (exec (.regRead 0x3C#32 0#32) doneAbc) State.hresp =
      some (some ⟨false, 0xf20015ad#32⟩) := by decide

/-- D-HOST: misaligned and outside the window; SEQ of D-SEQ. -/
theorem test_regRead_refused : view (exec (.regRead 0x02#32 0#32) abc) State.hresp =
      some (some ⟨true, 0#32⟩) ∧
    view (exec (.regRead 0x100#32 0#32) abc) State.hresp = some (some ⟨true, 0#32⟩) ∧
    view (exec (.regRead 0x14#32 0#32) (busyAt Phase.round 17#8)) State.hresp =
      some (some ⟨false, 0x00000811#32⟩) := by decide

/-- D-HOST: IRQEN, and P4's LEN_HI. -/
theorem test_regWrite : view (exec (.regWrite 0x10#32 0xFFFFFFFF#32) abc)
      (fun t => (t.irqenWord, t.hresp)) = some (0x3#32, some ⟨false, 0#32⟩) ∧
    view (exec (.regWrite 0x0C#32 0x20000000#32) abc) State.len =
      some 0x2000000000000003#64 := by decide

/-- D-HOST: LEN_LO while busy. -/
theorem test_regWrite_busy : view (exec (.regWrite 0x08#32 0x07#32) { abc with busy := true })
    (fun t => (t.len, t.hresp)) = some (3#64, some ⟨true, 0#32⟩) := by decide

/-- R193: the byte zero-extended. -/
theorem test_msgRead : view (exec (.msgRead 0x02#32 0#32) abc) (fun t => (t.hresp, t.draws)) =
    some (some ⟨false, 0x63#32⟩, 0) := by decide

/-- D-HOST: index PB_BYTES, and busy. -/
theorem test_msgRead_refused : view (exec (.msgRead 4096#32 0#32) abc) State.hresp =
      some (some ⟨true, 0#32⟩) ∧
    view (exec (.msgRead 0#32 0#32) { abc with busy := true }) State.hresp =
      some (some ⟨true, 0#32⟩) := by decide

/-- D-HOST: data[31:8] ignored. -/
theorem test_msgWrite : view (exec (.msgWrite 0#32 0x161#32) State.reset)
    (fun t => (t.pb, t.hresp)) = some ([(0, 0x61#8)], some ⟨false, 0#32⟩) := by decide

/-- D-HOST: busy. -/
theorem test_msgWrite_busy : view (exec (.msgWrite 10#32 0x55#32) { abc with busy := true })
    (fun t => (t.pb, t.hresp)) = some (abc.pb, some ⟨true, 0#32⟩) := by decide

/-- P4, line 15. -/
theorem test_ctrlSreset : view (exec (.ctrlSreset 0#30 0#1)
    { busyAt Phase.round 17#8 with len := 3#64, errIe := true, ptr := 64#64, nblk := 1#64 })
    (fun t => (t.seq, t.busy, t.ptr, t.nblk, t.len, t.irqenWord)) =
      some (0#16, false, 0#64, 0#64, 3#64, 2#32) := by decide

/-- P2, line 7: PTR = L. -/
theorem test_ctrlStart : view (exec (.ctrlStart 0#30) abc) (fun t => (t.statusWord, t.seq, t.ptr)) =
    some (0x00000001#32, 0x0100#16, 3#64) := by decide

/-- D-ERR: L = 4087, 4088 and 2^61. -/
theorem test_ctrlStart_checks :
    view (exec (.ctrlStart 0#30) { abc with len := 4087#64 }) State.statusWord = some 0x01#32 ∧
    view (exec (.ctrlStart 0#30) { abc with len := 4088#64 }) State.statusWord = some 0x24#32 ∧
    view (exec (.ctrlStart 0#30) { abc with len := 0x2000000000000000#64 }) State.statusWord =
      some 0x14#32 := by decide

/-- R198. -/
theorem test_ctrlNop : view (exec (.ctrlNop 0x3FFFFFFF#30) doneAbc)
    (fun t => (t.done, t.nblk, t.hresp)) = some (true, 1#64, some ⟨false, 0#32⟩) := by decide

/-- R84: a BUSERR, and OK with the word of STATUS. -/
theorem test_encodeHresp : encodeHresp ⟨true, 0#32⟩ = 0x100000000#33 ∧
    encodeHresp ⟨false, 0x102#32⟩ = 0x000000102#33 := by decide

/-- D-SER: the ends of digest_out. -/
theorem test_digestOut : doneAbc.digestOut.extractLsb' 224 32 = 0xba7816bf#32 ∧
    doneAbc.digestOut.extractLsb' 0 32 = 0xf20015ad#32 := by decide

/-- 60_exceptions.md R222 through a step: a refused START takes no core step. -/
theorem test_step_refusedStart : view (step { abc with
    len := 4088#64, agenda := [.request (hreqWord 1#2 0#32 1#32)] })
    (fun t => (t.statusWord, t.seq, t.agenda)) = some (0x24#32, 0#16, []) := by decide

/-! ## Witnesses: states and operands that meet the hypotheses of the obligations

Each names its obligation; several lines are its clauses, or the ends of a range. -/

theorem witness_DecodeInvertsEncode : (Instr.schedLoad 15#8).WellFormed ∧
    (Instr.schedExp 16#8).WellFormed ∧ (Instr.schedExp 63#8).WellFormed ∧
    (Instr.round 0#8).WellFormed ∧ (Instr.round 63#8).WellFormed ∧
    (Instr.regWrite 0#32 1#32).WellFormed ∧ (Instr.ctrlSreset 1#30 1#1).WellFormed := by decide

theorem witness_EncodeInvertsDecode : decode (.uop 0x063F#16) = .ok (.schedExp 63#8) ∧
    decode (.hreq 0x30000000000000061#66) = .ok (.msgWrite 0#32 0x61#32) ∧
    decode (.ctrlw 1#32) = .ok (.ctrlStart 0#30) := by decide

/-- R88: the words at the edges of each reserved range, and their defined neighbours. -/
theorem witness_ReservedUopWordsRejected :
    decodeUop 0x0A00#16 = .ok .blockNext ∧ decodeUop 0x0B00#16 = .error (.reservedUop 0x0B00#16) ∧
    decodeUop 0xFF00#16 = .error (.reservedUop 0xFF00#16) ∧
    decodeUop 0x0001#16 = .error (.reservedUop 0x0001#16) ∧
    decodeUop 0x0510#16 = .error (.reservedUop 0x0510#16) ∧
    decodeUop 0x060F#16 = .error (.reservedUop 0x060F#16) ∧
    decodeUop 0x0640#16 = .error (.reservedUop 0x0640#16) ∧
    decodeUop 0x0840#16 = .error (.reservedUop 0x0840#16) := by decide

theorem witness_HostRequestFields :
    (0x161#32).extractLsb' 0 8 = (0xFFFFFF61#32).extractLsb' 0 8 ∧ 0x161#32 ≠ 0xFFFFFF61#32 := by
  decide

/-- T-SIG: rotr(00000001, 2), rotr(80000000, 25); and n = 1 and 31. -/
theorem witness_RotationMovesBits : rotr 1#32 2 = 0x40000000#32 ∧ rotr 0x80000000#32 25 = 0x40#32 ∧
    rotr 1#32 1 = 0x80000000#32 ∧ rotr 1#32 31 = 2#32 := by decide

theorem witness_SigmaFunctionsBitwise : (smallSigma0 1#32).getLsbD 25 = true ∧
    (smallSigma0 1#32).getLsbD 29 = false ∧ (bigSigma0 1#32).getLsbD 30 = true := by decide

/-- L = 55 has no zero fill, L = 56 has 63: indexes of every clause. -/
theorem witness_PaddingClosedForms :
    (55 + 1 + 0) % 64 = 56 ∧ 64 % 64 = 0 ∧ 55 + 9 ≤ 64 ∧
    (56 < 57 ∧ 57 < pbLen 56 - 8) ∧ (56 < 119 ∧ 119 < pbLen 56 - 8) ∧
    (pad (List.replicate 56 0x61#8))[119]? = some 0x00#8 ∧
    (pad (List.replicate 56 0x61#8))[127]? = some 0xc0#8 := by decide

theorem witness_DigestIsBigEndian : (digest hsAbc)[0]? = some 0xba#8 ∧
    (digest hsAbc)[31]? = some 0xad#8 := by decide

theorem witness_DigestPortReadsDigest : doneAbc.done = true ∧
    some (doneAbc.digestOut.extractLsb' 248 8) = (digest doneAbc.hs)[0]? := by decide

theorem witness_PadMarkAppendsMarker :
    (padding Phase.padMark 0#64 0#64).ptr.toNat < State.reset.pbBytes ∧
    (padding Phase.padMark 4095#64 0#64).ptr.toNat < State.reset.pbBytes := by decide

theorem witness_PadZeroAppendsZero :
    (padding Phase.padZero 1#64 0#64).ptr.toNat < State.reset.pbBytes ∧
    (padding Phase.padZero 4095#64 0#64).ptr.toNat < State.reset.pbBytes := by decide

theorem witness_PadLenAppendsBitLength :
    (padding Phase.padLen 56#64 3#64).ptr.toNat + 8 ≤ State.reset.pbBytes ∧
    (padding Phase.padLen 4088#64 4087#64).ptr.toNat + 8 ≤ State.reset.pbBytes := by decide

theorem witness_PaddingUnitPadsBuffer :
    let s := padding Phase.padMark 55#64 55#64
    let u := padding Phase.padMark 4087#64 4087#64
    (s.CoreAt Phase.padMark 0#8 ∧ s.LengthFits ∧ s.ptr = s.len) ∧
    (u.CoreAt Phase.padMark 0#8 ∧ u.LengthFits ∧ u.ptr = u.len) := by decide

theorem witness_SchedLoadReadsBlockWord :
    (15#8).toNat < 16 ∧
    64 * (0#64).toNat + 4 * (15#8).toNat + 4 ≤ State.reset.pbBytes ∧
    64 * (63#64).toNat + 4 * (15#8).toNat + 4 ≤ State.reset.pbBytes ∧
    zeros.byteAt (4 * (15#8).toNat + 3) = some 0x00#8 ∧
    (∀ j, j < 4 → zeros.byteAt (64 * (0#64).toNat + 4 * (15#8).toNat + j) ≠ none) := by decide

theorem witness_SchedExpFollowsRecurrence :
    (16 ≤ (16#8).toNat ∧ (16#8).toNat < 64) ∧ (16 ≤ (63#8).toNat ∧ (63#8).toNat < 64) := by decide

/-- A busy state over a block of written zeros. -/
def zeroBlock : State := { busyAt Phase.schedLoad 0#8 with pb := zeros, nblk := 1#64 }

theorem zeroBlock_holds : zeroBlock.HoldsBlock (List.replicate 64 0x00#8) := by decide

theorem witness_ExpanderFillsSchedule : zeroBlock.CoreAt Phase.schedLoad 0#8 ∧
    zeroBlock.HoldsBlock (List.replicate 64 0x00#8) := ⟨by decide, zeroBlock_holds⟩

theorem witness_BlockStepsCompress : zeroBlock.CoreAt Phase.schedLoad 0#8 ∧
    zeroBlock.HoldsBlock (List.replicate 64 0x00#8) := ⟨by decide, zeroBlock_holds⟩

theorem witness_RoundUpdatesWorkingVariables : (0#8).toNat < 64 ∧ (63#8).toNat < 64 := by decide

theorem witness_IdleCoreIsQuiescent :
    let s : State := { doneAbc with agenda := [.core] }
    (State.reset.Admits ∧ State.reset.busy = false ∧ State.reset.nextTurn = .core) ∧
    (s.Admits ∧ s.busy = false ∧ s.nextTurn = .core) := by decide

theorem witness_BlockNextAdvancesOrFinishes :
    let s : State := { busyAt Phase.blockNext 0#8 with nblk := 2#64 }
    let u : State := { s with blk := 1#64 }
    (s.blk.toNat + 1 < 2 ^ 64 ∧ s.blk.toNat + 1 < s.nblk.toNat) ∧
    (u.blk.toNat + 1 < 2 ^ 64 ∧ u.nblk.toNat ≤ u.blk.toNat + 1) := by decide

theorem witness_SequencerChangesOnlyBy : (∃ t, exec (.ctrlStart 0#30) abc = .next t ∧
    (t.phase ≠ abc.phase ∨ t.idx ≠ abc.idx)) ∧ abc.busy = false ∧ abc.LengthFits :=
  ⟨⟨_, rfl, by decide⟩, by decide⟩

/-- A run just started over "abc", and one over a never-written message. -/
def startedAbc : State := { abc with busy := true, phase := Phase.initH, ptr := 3#64 }

theorem witness_RunComputesHash : startedAbc.CoreAt Phase.initH 0#8 ∧ startedAbc.StatusOk ∧
    startedAbc.LengthFits ∧ startedAbc.ptr = startedAbc.len ∧ startedAbc.blk = 0#64 ∧
    startedAbc.HoldsMessage [0x61#8, 0x62#8, 0x63#8] ∧ 185 < steps 3 := by decide

/-- 185 core turns and a busy host: a DIGEST0 read, a LEN_LO write, a START and an IRQEN write. -/
def busyHost : List Turn :=
  [.request (hreqWord 0#2 0x20#32 0#32), .request (hreqWord 1#2 0x08#32 7#32), .command 1#32,
    .request (hreqWord 1#2 0x10#32 3#32)] ++ List.replicate 185 .core

/-- A core that runs at every other turn, with a host that polls STATUS at the others. -/
def pollingSchedule : Schedule := fun n => if n % 2 = 0 then .core else statusPoll

/-- Both are core_fair: the core has infinitely many turns, so whatever BUSY does. -/
theorem fair_schedules (s : State) : CoreFair (fun _ => .core) s ∧ CoreFair pollingSchedule s :=
  ⟨coreFair_of_often s fun n => ⟨n, le_rfl, rfl⟩,
    coreFair_of_often s fun n => ⟨2 * n, by omega, by simp [pollingSchedule]⟩⟩

/-- The run of "abc" under pollingSchedule meets the premises of both clauses on schedules. -/
theorem witness_RunSurvivesInterleaving_schedules :
    (startedAbc.busy = true ∧ startedAbc.phase = Phase.initH ∧ startedAbc.idx = 0#8 ∧
      startedAbc.StatusOk ∧ startedAbc.LengthFits ∧ startedAbc.ptr = startedAbc.len ∧
      startedAbc.blk = 0#64 ∧ startedAbc.HoldsMessage [0x61#8, 0x62#8, 0x63#8]) ∧
    CoreFair pollingSchedule startedAbc ∧ (∀ n, (pollingSchedule n).harmless = true) ∧
    (∀ n, pollingSchedule n = .core ∨ pollingSchedule n = statusPoll) ∧
    (∀ n, ∃ k, n ≤ k ∧ pollingSchedule k = statusPoll) := by
  have two (n : Nat) : pollingSchedule n = .core ∨ pollingSchedule n = statusPoll := by
    unfold pollingSchedule; split <;> simp
  refine ⟨by decide, (fair_schedules _).2, fun n => ?_, two, fun n => ⟨2 * n + 1, by omega, ?_⟩⟩
  · rcases two n with h | h <;> rw [h] <;> decide
  · simp [pollingSchedule, Nat.add_mod]

/-- Not every schedule is core_fair: one that never steps the core keeps this state busy (R252). -/
theorem test_starvation : view (startedAbc.under (fun _ => statusPoll) 2)
    (fun t => (t.busy, t.seq, t.hresp)) = some (true, 0x0100#16, some ⟨false, 0x1#32⟩) := by decide

/-- With the core as the last turn of an agenda, or another agent as every turn after it. -/
theorem test_nextTurn : startedAbc.nextTurn = .core ∧
    { startedAbc with thereafter := statusPoll }.nextTurn = statusPoll ∧
    { startedAbc with agenda := [.core], thereafter := statusPoll }.nextTurn = .core := by decide

set_option maxRecDepth 8000 in
theorem witness_RunSurvivesInterleaving :
    let s : State := { startedAbc with agenda := busyHost ++ [.core] }
    s.agenda = busyHost ++ [.core] ∧ (∀ u ∈ busyHost, u.harmless = true) ∧
    busyHost.count .core + 1 = steps [0x61#8, 0x62#8, 0x63#8].length ∧
    s.busy = true ∧ s.phase = Phase.initH ∧ s.idx = 0#8 ∧ s.StatusOk ∧ s.LengthFits ∧
    s.ptr = s.len ∧ s.blk = 0#64 ∧ s.HoldsMessage [0x61#8, 0x62#8, 0x63#8] :=
  ⟨rfl, by decide, by decide, rfl, rfl, rfl, by decide, by decide, rfl, rfl, by decide⟩

theorem witness_RunIgnoresOldRegisters :
    let s : State := { startedAbc with pb := [] }
    s.CoreAt Phase.initH 0#8 ∧ s.LengthFits ∧ s.ptr = s.len ∧ s.blk = 0#64 := by decide

theorem witness_DigestReadsHashState : doneAbc.done = true ∧ abc.done = false ∧ 7 < 8 := by decide

/-- The ends of the two ranges of each clause. -/
theorem witness_ReservedAndReadOnlyOffsets :
    (0x1C < 0x100 ∧ 0x1C % 4 = 0) ∧ (0x40 < 0x100 ∧ 0x40 % 4 = 0) ∧ (0xFC < 0x100 ∧ 0xFC % 4 = 0) ∧
    0x3C ∉ [0x00, 0x08, 0x0C, 0x10] ∧ 0x04 ∉ [0x00, 0x08, 0x0C, 0x10] := by decide

theorem witness_RegWriteWritesRegister : abc.busy = false := by decide

theorem witness_CtrlWriteExecutesCommand : (3#32).getLsbD 1 = true ∧
    ((1#32).getLsbD 1 = false ∧ (1#32).getLsbD 0 = true) ∧
    ((0xFFFFFFFC#32).getLsbD 1 = false ∧ (0xFFFFFFFC#32).getLsbD 0 = false) := by decide

theorem witness_MsgReadReturnsByte :
    (abc.pbBytes ≤ (4096#32).toNat ∧ startedAbc.busy = true) ∧
    ((4095#32).toNat < abc.pbBytes ∧ abc.busy = false ∧ abc.pb.byteAt 4095 = none) ∧
    ((2#32).toNat < abc.pbBytes ∧ abc.pb.byteAt 2 = some 0x63#8) := by decide

theorem witness_MsgWriteStoresByte :
    (abc.pbBytes ≤ (4096#32).toNat ∧ startedAbc.busy = true) ∧
    (0#32).toNat < abc.pbBytes ∧ (4095#32).toNat < abc.pbBytes ∧ abc.busy = false := by decide

/-- Each cause, and none of them, at the edge of its range. -/
theorem witness_BusErrorExactly :
    (0x100#32).toNat / 256 ≠ 0 ∧ (0x03#32).toNat % 4 ≠ 0 ∧
    ((0xFC#32).toNat / 256 = 0 ∧ (0xFC#32).toNat % 4 = 0) ∧
    (startedAbc.busy = true ∧ abc.busy = false) ∧
    (abc.pbBytes ≤ (4096#32).toNat ∧ (4095#32).toNat < abc.pbBytes) := by decide

theorem witness_EveryRequestAnswered : (Instr.msgWrite 4096#32 0#32).isHost = true ∧
    (Instr.ctrlNop 0#30).isHost = true ∧
    (∃ t, exec (.msgWrite 4096#32 0#32) abc = .next t ∧ t.hresp = some ⟨true, 0#32⟩) :=
  ⟨rfl, rfl, _, rfl, rfl⟩

/-- L = 4087 is the longest length that fits PB_BYTES = 4096. -/
theorem witness_StartAcceptedBeginsRun :
    let s : State := { State.reset with len := 4087#64 }
    s.busy = false ∧ s.LengthFits := by decide

theorem witness_StartTooLargeRaisesError :
    let s : State := { State.reset with len := 0x2000000000000000#64 }
    s.busy = false ∧ 2 ^ 61 ≤ s.len.toNat ∧
    (∃ t, exec (.ctrlStart 0#30) s = .next t ∧ t.errcode = 1#4) := ⟨rfl, by decide, _, rfl, by decide⟩

theorem witness_StartOverCapacityRaisesError :
    let s : State := { State.reset with len := 4088#64 }
    let u : State := { State.reset with len := 0x1FFFFFFFFFFFFFFF#64 }
    (s.busy = false ∧ s.len.toNat < 2 ^ 61 ∧ s.pbBytes < s.len.toNat + 9) ∧
    (u.busy = false ∧ u.len.toNat < 2 ^ 61 ∧ u.pbBytes < u.len.toNat + 9) ∧
    (∃ t, exec (.ctrlStart 0#30) s = .next t ∧ t.errcode = 2#4) :=
  ⟨by decide, by decide, _, rfl, by decide⟩

theorem witness_SoftResetClearsRun : (2#32).getLsbD 1 = true ∧ (3#32).getLsbD 1 = true := by decide

theorem witness_CtrlNopHasNoEffect : (0xFFFFFFFC#32).getLsbD 1 = false ∧
    (0xFFFFFFFC#32).getLsbD 0 = false := by decide

theorem witness_StartWhileBusyIgnored : startedAbc.busy = true := by decide

theorem witness_HostCannotDisturbRun : startedAbc.busy = true ∧
    ((Instr.regWrite 0x08#32 7#32).isHost = true ∧ (Instr.regWrite 0x08#32 7#32).isSreset = false) ∧
    ((Instr.regWrite 0#32 1#32).isHost = true ∧ (Instr.regWrite 0#32 1#32).isSreset = false) := by
  decide

theorem witness_InterruptLevel :
    let s : State := { doneAbc with doneIe := true }
    (∃ t v, exec (.regRead 0x04#32 0#32) s = .next t ∧ t.hresp = some v) ∧
    (s.StatusOk ∧ s.irq = true) ∧
    (∃ t, exec (.ctrlSreset 0#30 0#1) s = .next t) :=
  ⟨⟨_, _, rfl, rfl⟩, by decide, _, rfl⟩

theorem witness_RegisterFileWriters :
    (∃ t, exec .accum doneAbc = .next t) ∧ (∃ t, exec (.round 63#8) doneAbc = .next t) ∧
    (∃ t, exec (.schedExp 63#8) doneAbc = .next t) := ⟨⟨_, rfl⟩, ⟨_, rfl⟩, _, rfl⟩

theorem witness_ConfigurationWriters :
    (∃ t, exec (.regWrite 0x08#32 7#32) abc = .next t ∧ t.len ≠ abc.len) ∧
    (∃ t, exec (.regWrite 0x10#32 1#32) abc = .next t ∧ t.doneIe ≠ abc.doneIe) :=
  ⟨⟨_, rfl, by decide⟩, _, rfl, by decide⟩

theorem witness_StatusAndCounterWriters :
    let s : State := { abc with err := true, errcode := 2#4 }
    (∃ t, exec (.ctrlStart 0#30) s = .next t ∧ t.err ≠ s.err ∧ t.ptr ≠ s.ptr) ∧
    (∃ t, exec .blockNext startedAbc = .next t ∧ t.done ≠ startedAbc.done ∧
      t.blk ≠ startedAbc.blk) ∧
    (∃ t, exec .padLen startedAbc = .next t ∧ t.ptr ≠ startedAbc.ptr) :=
  ⟨⟨_, rfl, by decide, by decide⟩, ⟨_, rfl, by decide, by decide⟩, _, rfl, by decide⟩

theorem witness_BufferWriters :
    (∃ t, exec (.msgWrite 9#32 5#32) abc = .next t ∧ t.pb.byteAt 9 ≠ abc.pb.byteAt 9) ∧
    (∃ t, exec .padMark startedAbc = .next t ∧ t.pb.byteAt 3 ≠ startedAbc.pb.byteAt 3) ∧
    (∃ t, exec .padLen startedAbc = .next t ∧ t.pb.byteAt 10 ≠ startedAbc.pb.byteAt 10) :=
  ⟨⟨_, rfl, by decide⟩, ⟨_, rfl, by decide⟩, _, rfl, by decide⟩

theorem witness_OutOfRangeAccessFaults :
    let s := padding Phase.padMark 4096#64 4096#64
    let u := padding Phase.padLen 4089#64 4089#64
    let v : State := { busyAt Phase.schedLoad 0#8 with blk := 64#64 }
    s.pbBytes ≤ s.ptr.toNat ∧ u.pbBytes < u.ptr.toNat + 8 ∧
    ((0#8).toNat < 16 ∧ v.pbBytes < 64 * v.blk.toNat + 4 * (0#8).toNat + 4) ∧
    stop (exec (.schedLoad 0#8) v) = some (.inl .pbOutOfRange) := by decide

theorem witness_ReservedIsRefused :
    let s : State := { abc with errcode := 3#4 }
    let u : State := { abc with phase := 0x0B#8 }
    (Instr.round 64#8).wf = false ∧ stop (exec (.schedLoad 16#8) abc) = some (.inr .reservedUop) ∧
    (s.nextTurn ≠ .powerOn ∧ 2 < s.errcode.toNat) ∧
    (u.nextTurn ≠ .powerOn ∧ u.errcode.toNat ≤ 2 ∧ (decodeUop u.seq).toOption = none) := by decide

theorem witness_HardwareResetAbortsRun :
    let s : State := { startedAbc with agenda := [.powerOn, .core] }
    let u : State := { startedAbc with thereafter := .powerOn }
    s.nextTurn = .powerOn ∧ u.nextTurn = .powerOn := by decide

theorem witness_StepRunsDecodedOperation :
    let r : State := { abc with agenda := [.request 0x10000000000000001#66] }
    let c : State := { abc with agenda := [.command 2#32] }
    (startedAbc.Admits ∧ startedAbc.nextTurn = .core ∧ startedAbc.busy = true ∧
      decode (.uop startedAbc.seq) = .ok .initH) ∧
    (r.Admits ∧ r.nextTurn = .request 0x10000000000000001#66 ∧
      decode (.hreq 0x10000000000000001#66) = .ok (.regWrite 0#32 1#32)) ∧
    (c.Admits ∧ c.nextTurn = .command 2#32 ∧
      decode (.ctrlw 2#32) = .ok (.ctrlSreset 0#30 0#1)) := by decide

/-- One word of each format, and IDLE's. -/
theorem witness_PlacedWordRunsNext : State.reset.Admits ∧
    decodeTableWord 16 0x083F = some (.round 63#8) ∧ decodeTableWord 16 0 = some .idle ∧
    decodeTableWord 72 0x30000000000000061 = some (.msgWrite 0#32 0x61#32) ∧
    decodeTableWord 32 2 = some (.ctrlSreset 0#30 0#1) := by decide

/-- The invariant's parts are decidable one by one. -/
theorem reset_inv : State.reset.Inv :=
  ⟨by decide, by decide, by decide, by decide, by decide, by decide⟩

/-- A run within its padding: L = 3, PTR past the marker. -/
theorem padding_inv : { padding Phase.padZero 4#64 3#64 with pb := [(3, 0x80#8)] }.Inv :=
  ⟨by decide, by decide, by decide, by decide, by decide, by decide⟩

/-- A run within its last block: L = 56, NBLK = 2. -/
theorem block_inv : { padding Phase.blockNext 128#64 56#64 with nblk := 2#64, blk := 1#64 }.Inv :=
  ⟨by decide, by decide, by decide, by decide, by decide, by decide⟩

theorem witness_StepKeepsInvariant :
    (∃ t, step { padding Phase.padZero 4#64 3#64 with pb := [(3, 0x80#8)] } = .next t) ∧
    (∃ t, step { padding Phase.blockNext 128#64 56#64 with nblk := 2#64, blk := 1#64 } = .next t) ∧
    (∃ t, step State.reset = .next t) := ⟨⟨_, rfl⟩, ⟨_, rfl⟩, _, rfl⟩

/-- The states of reset_inv, padding_inv and block_inv, and one with an error recorded; for the last
clause a busy state under a host that polls for ever. -/
theorem witness_InvariantStateAlwaysSteps :
    { abc with err := true, errcode := 2#4, len := 4088#64 }.Inv ∧
    startedAbc.Admits ∧ startedAbc.busy = true ∧
    ∀ _ : Nat, statusPoll.harmless = true ∧ statusPoll ≠ .core :=
  ⟨⟨by decide, by decide, by decide, by decide, by decide, by decide⟩, by decide, rfl,
    fun _ => by decide⟩

theorem done_inv : doneAbc.Inv :=
  ⟨by decide, by decide, by decide, by decide, by decide, by decide⟩

end Sys2Proof.Tests
end

/-! ## Rotation (R11) -/

namespace Sys2Proof.Machine

/-- Below the word's width, R11's formula is the library's rotation: its reduction of the amount
modulo 32 does nothing. -/
theorem rotr_eq_rotateRight (x : Word) {n : Nat} (hn : n < 32) : rotr x n = x.rotateRight n := by
  rw [BitVec.rotateRight_def, Nat.mod_eq_of_lt hn, rotr]

/-- R11's bit reading. The bits below 32 - n come down by n; the others wrap round from the bottom
of x, where (i + n) mod 32 is i + n - 32. -/
theorem getLsbD_rotr (x : Word) {n i : Nat} (hn : n < 32) (hi : i < 32) :
    (rotr x n).getLsbD i = x.getLsbD ((i + n) % 32) := by
  rw [rotr_eq_rotateRight x hn, BitVec.getLsbD_rotateRight, Nat.mod_eq_of_lt hn]
  by_cases hlow : i < 32 - n
  · have hsum : (i + n) % 32 = n + i := by omega
    simp [hlow, hsum]
  · have hsum : (i + n) % 32 = i - (32 - n) := by omega
    simp [hlow, hsum, hi]

/-- Settles O7: the formula is rotr's definition, the bit reading is `getLsbD_rotr`. -/
theorem rotationMovesBits : Obligations.RotationMovesBits :=
  fun x _ _ hn => ⟨rfl, fun _ hi => getLsbD_rotr x hn hi⟩

end Sys2Proof.Machine

/-! ## What one operation can do

`Effect` lists, operation by operation, every state that `exec` can answer, guards included;
`exec_effect` ties it to `exec`. The claims on which operation writes which register, and the step
lemma of the invariant, are case splits over it. -/

namespace Sys2Proof.Machine

/-- The state a host operation leaves before its response is recorded (44_host_interface.md R191 to
R198). `unchanged` stands for the reads, the refused requests, CTRL_NOP, a START while busy and the
writes to offsets that ignore them: at most the draw counter moves. -/
inductive HostEffect (s : State) (i : Instr) : State → Prop
  | unchanged (d : Nat) : HostEffect s i { s with draws := d }
  | softReset (hi : i.isSreset = true) : HostEffect s i s.softReset
  | startRefused (hi : i.isStart = true) (hb : s.busy = false) (c : BitVec 4)
      (hc : c = 1#4 ∨ c = 2#4) : HostEffect s i (s.clearForStart.raiseErr c)
  | startAccepted (hi : i.isStart = true) (hb : s.busy = false) (hfit : s.LengthFits) :
      HostEffect s i s.clearForStart.beginRun
  | lenWrite (d : Word) (hi : i = .regWrite 0x08#32 d ∨ i = .regWrite 0x0C#32 d)
      (hb : s.busy = false) (l : BitVec 64) : HostEffect s i { s with len := l }
  | irqenWrite (d : Word) (hi : i = .regWrite 0x10#32 d) :
      HostEffect s i { s with doneIe := d.getLsbD 0, errIe := d.getLsbD 1 }
  | msgWrite (addr d : Word) (hi : i = .msgWrite addr d) (hb : s.busy = false)
      (ha : addr.toNat < s.pbBytes) :
      HostEffect s i { s with pb := s.pb.set addr.toNat (msgByte d) }

/-- The state an operation leaves (40_padding.md R104 to R106, 41_schedule.md R124 and R125,
42_compression.md R144 to R148, 43_sequencer.md R172 and R173; 44_host_interface.md R190). -/
inductive Effect (s : State) : Instr → State → Prop
  | idle : Effect s .idle s
  | initH : Effect s .initH ({ s with hs := ivRom }.goto Phase.padMark 0#8)
  | padByte {i : Instr} (hi : i = .padMark ∨ i = .padZero) (b : Byte)
      (hptr : s.ptr.toNat < s.pbBytes) :
      Effect s i { s with
        pb := s.pb.set s.ptr.toNat b
        ptr := s.ptr + 1#64
        phase := if (s.ptr + 1#64).toNat % 64 = 56 then Phase.padLen else Phase.padZero
        idx := 0#8 }
  | padLen (hptr : s.ptr.toNat + 8 ≤ s.pbBytes) :
      Effect s .padLen { s with
        pb := s.pb.setBytes s.ptr.toNat (be64 (bitLen s.len))
        nblk := (s.ptr + 8#64) >>> 6
        ptr := s.ptr + 8#64
        phase := Phase.schedLoad
        idx := 0#8 }
  | schedLoad (t : BitVec 8) (ht : t.toNat < 16) (ha : s.blockWordAddr t.toNat + 4 ≤ s.pbBytes) :
      Effect s (.schedLoad t) { s with
        w := s.w.set t.toNat (s.pb.readWord (s.blockWordAddr t.toNat) s.draws).1
        draws := (s.pb.readWord (s.blockWordAddr t.toNat) s.draws).2
        phase := if t.toNat < 15 then Phase.schedLoad else Phase.schedExp
        idx := if t.toNat < 15 then t + 1#8 else 16#8 }
  | schedExp (t : BitVec 8) (ht : 16 ≤ t.toNat ∧ t.toNat < 64) :
      Effect s (.schedExp t) { s with
        w := s.w.set t.toNat (schedSum s.w[t.toNat - 2] s.w[t.toNat - 7] s.w[t.toNat - 15]
          s.w[t.toNat - 16])
        phase := if t.toNat < 63 then Phase.schedExp else Phase.wvInit
        idx := if t.toNat < 63 then t + 1#8 else 0#8 }
  | wvInit : Effect s .wvInit ({ s with wv := s.hs }.goto Phase.round 0#8)
  | round (t : BitVec 8) (ht : t.toNat < 64) :
      Effect s (.round t) { s with
        wv := roundOf s.wv kRom[t.toNat] s.w[t.toNat]
        phase := if t.toNat < 63 then Phase.round else Phase.accum
        idx := if t.toNat < 63 then t + 1#8 else 0#8 }
  | accum : Effect s .accum ({ s with hs := addWords s.hs s.wv }.goto Phase.blockNext 0#8)
  | blockMore (hblk : (s.blk + 1#64).toNat < s.nblk.toNat) :
      Effect s .blockNext ({ s with blk := s.blk + 1#64 }.goto Phase.schedLoad 0#8)
  | runEnd (hblk : ¬(s.blk + 1#64).toNat < s.nblk.toNat) :
      Effect s .blockNext
        ({ s with blk := s.blk + 1#64, busy := false, done := true }.goto Phase.idle 0#8)
  | host {i : Instr} (hi : i.isHost = true) {u : State} (hu : HostEffect s i u) (r : HResp)
      (hr : r.err = true → r.rdata = 0#32) : Effect s i { u with hresp := some r }

variable {s t : State} {i : Instr}

/-! ### The host's operations -/

/-- An operation answered BUSERR (60_exceptions.md R225). -/
theorem Effect.busErr (hi : i.isHost = true) : Effect s i s.respondBusErr :=
  .host hi (.unchanged s.draws) ⟨true, 0#32⟩ fun _ => rfl

/-- An operation answered OK. -/
theorem Effect.ok (hi : i.isHost = true) {u : State} (hu : HostEffect s i u) (d : Word) :
    Effect s i (u.respondOk d) := .host hi hu ⟨false, d⟩ nofun

/-- What a START does (44_host_interface.md R196, 60_exceptions.md R223). -/
theorem HostEffect.start (hi : i.isStart = true) : HostEffect s i s.start := by
  obtain ⟨-, hs⟩ | ⟨hb, c, hc, hs⟩ | ⟨hb, hlen, hfit, hs⟩ := s.start_cases <;> rw [hs]
  · exact .unchanged s.draws
  · exact .startRefused hi hb c hc
  · exact .startAccepted hi hb ⟨hlen, hfit⟩

/-- An operation that is refused with BUSERR while BUSY = 1 and answered OK otherwise. -/
theorem Effect.unlessBusy (hi : i.isHost = true) {u : State} {d : Word}
    (hu : s.busy = false → HostEffect s i u)
    (h : (if s.busy then .next s.respondBusErr else .next (u.respondOk d) : Result) = .next t) :
    Effect s i t := by
  split at h <;> obtain rfl := Host.Outcome.next.inj h
  · exact .busErr hi
  · next hb => exact .ok hi (hu (by simpa using hb)) d

/-- The bit of a CTRL write that selects CTRL_SRESET is the one `commandOf` reads (R195). -/
theorem isSreset_ctrlWrite {data : Word} (h : commandOf data = .sreset) :
    (Instr.regWrite 0x00#32 data).isSreset = true := by
  rw [commandOf_bits] at h
  split at h
  · next h1 => exact h1
  · split at h <;> cases h

/-- The bits of a CTRL write that select CTRL_START are those `commandOf` reads (R195). -/
theorem isStart_ctrlWrite {data : Word} (h : commandOf data = .start) :
    (Instr.regWrite 0x00#32 data).isStart = true := by
  rw [commandOf_bits] at h
  split at h
  · cases h
  · split at h
    · next h1 h0 => simpa [Instr.isStart] using And.intro h1 h0
    · cases h

/-- A CTRL write does what its data selects (R195). -/
theorem effect_ctrlWrite {data : Word} (h : runCommand data s = .next t) :
    Effect s (.regWrite 0x00#32 data) t := by
  obtain ⟨u, hu, hcase⟩ := runCommand_next data s
  obtain rfl := Host.Outcome.next.inj (hu.symm.trans h)
  obtain ⟨rfl, hc⟩ | ⟨rfl, hc⟩ | ⟨rfl, -⟩ := hcase
  · exact .ok rfl (.softReset (isSreset_ctrlWrite hc)) 0#32
  · exact .ok rfl (.start (isStart_ctrlWrite hc)) 0#32
  · exact .ok rfl (.unchanged u.draws) 0#32

theorem effect_regRead {addr data : Word} (h : execRegRead addr data s = .next t) :
    Effect s (.regRead addr data) t := by
  unfold execRegRead at h
  cases hr : regNamed addr <;> rw [hr] at h <;> obtain rfl := Host.Outcome.next.inj h
  · exact .busErr rfl
  · exact .ok rfl (.unchanged _) _

theorem effect_regWrite {addr data : Word} (h : execRegWrite addr data s = .next t) :
    Effect s (.regWrite addr data) t := by
  unfold execRegWrite at h
  cases hr : regNamed addr with
  | none =>
    rw [hr] at h
    obtain rfl := Host.Outcome.next.inj h
    exact .busErr rfl
  | some r =>
    obtain ⟨hctrl, hlo, hhi, hirq⟩ := regNamed_writable_elim hr
    rw [hr] at h
    cases r with
    | ctrl => obtain rfl := hctrl rfl; exact effect_ctrlWrite h
    | lenLo =>
      obtain rfl := hlo rfl
      exact .unlessBusy rfl (fun hb => .lenWrite data (.inl rfl) hb _) h
    | lenHi =>
      obtain rfl := hhi rfl
      exact .unlessBusy rfl (fun hb => .lenWrite data (.inr rfl) hb _) h
    | irqen =>
      obtain rfl := hirq rfl
      obtain rfl := Host.Outcome.next.inj h
      exact .ok rfl (.irqenWrite data rfl) 0#32
    | _ =>
      obtain rfl := Host.Outcome.next.inj h
      exact .ok rfl (.unchanged s.draws) 0#32

theorem effect_msgRead {addr data : Word} (h : execMsgRead addr data s = .next t) :
    Effect s (.msgRead addr data) t := by
  unfold execMsgRead at h
  cases hm : s.msgIndex addr <;> rw [hm] at h
  · obtain rfl := Host.Outcome.next.inj h
    exact .busErr rfl
  · exact .unlessBusy rfl (fun _ => .unchanged _) h

theorem effect_msgWrite {addr data : Word} (h : execMsgWrite addr data s = .next t) :
    Effect s (.msgWrite addr data) t := by
  unfold execMsgWrite at h
  by_cases ha : addr.toNat < s.pbBytes
  · rw [State.msgIndex_eq, if_pos ha] at h
    exact .unlessBusy rfl (fun hb => .msgWrite addr data rfl hb ha) h
  · rw [State.msgIndex_eq, if_neg ha] at h
    obtain rfl := Host.Outcome.next.inj h
    exact .busErr rfl

/-! ### The micro-operations -/

theorem effect_appendPad {b : Byte} (hi : i = .padMark ∨ i = .padZero)
    (h : appendPad b s = .next t) : Effect s i t := by
  by_cases hptr : s.ptr.toNat < s.pbBytes
  · rw [appendPad_next b hptr] at h
    obtain rfl := Host.Outcome.next.inj h
    exact .padByte hi b hptr
  · simp [appendPad_fault b hptr] at h

theorem effect_padLen (h : execPadLen s = .next t) : Effect s .padLen t := by
  by_cases hptr : s.ptr.toNat + 8 ≤ s.pbBytes
  · rw [execPadLen_next hptr] at h
    obtain rfl := Host.Outcome.next.inj h
    exact .padLen hptr
  · simp [execPadLen, hptr] at h

theorem effect_schedLoad {n : BitVec 8} (h : execSchedLoad n s = .next t) :
    Effect s (.schedLoad n) t := by
  by_cases hn : n.toNat < 16
  · by_cases ha : s.blockWordAddr n.toNat + 4 ≤ s.pbBytes
    · rw [execSchedLoad_next hn ha] at h
      obtain rfl := Host.Outcome.next.inj h
      exact .schedLoad n hn ha
    · simp [execSchedLoad, hn, ha] at h
  · simp [execSchedLoad, hn] at h

theorem effect_schedExp {n : BitVec 8} (h : execSchedExp n s = .next t) :
    Effect s (.schedExp n) t := by
  by_cases hn : 16 ≤ n.toNat ∧ n.toNat < 64
  · rw [execSchedExp_next hn] at h
    obtain rfl := Host.Outcome.next.inj h
    exact .schedExp n hn
  · simp only [execSchedExp, dif_neg hn] at h
    cases h

theorem effect_round {n : BitVec 8} (h : execRound n s = .next t) : Effect s (.round n) t := by
  by_cases hn : n.toNat < 64
  · rw [execRound_next hn] at h
    obtain rfl := Host.Outcome.next.inj h
    exact .round n hn
  · simp [execRound, hn] at h

theorem effect_blockNext (h : execBlockNext s = .next t) : Effect s .blockNext t := by
  obtain rfl := Host.Outcome.next.inj h
  split
  · next hblk => exact .blockMore hblk
  · next hblk => exact .runEnd hblk

/-! ### Every operation -/

/-- Whatever `exec` answers is one of the effects. -/
theorem exec_effect (h : exec i s = .next t) : Effect s i t := by
  cases i with
  | idle => obtain rfl := Host.Outcome.next.inj h; exact .idle
  | initH => obtain rfl := Host.Outcome.next.inj h; exact .initH
  | padMark => exact effect_appendPad (.inl rfl) h
  | padZero => exact effect_appendPad (.inr rfl) h
  | padLen => exact effect_padLen h
  | schedLoad n => exact effect_schedLoad h
  | schedExp n => exact effect_schedExp h
  | wvInit => obtain rfl := Host.Outcome.next.inj h; exact .wvInit
  | round n => exact effect_round h
  | accum => obtain rfl := Host.Outcome.next.inj h; exact .accum
  | blockNext => exact effect_blockNext h
  | regRead addr data => exact effect_regRead h
  | regWrite addr data => exact effect_regWrite h
  | msgRead addr data => exact effect_msgRead h
  | msgWrite addr data => exact effect_msgWrite h
  | ctrlSreset r b =>
    obtain rfl := Host.Outcome.next.inj h
    exact .ok rfl (.softReset rfl) 0#32
  | ctrlStart r =>
    obtain rfl := Host.Outcome.next.inj h
    exact .ok rfl (.start rfl) 0#32
  | ctrlNop r =>
    obtain rfl := Host.Outcome.next.inj h
    exact .ok rfl (.unchanged s.draws) 0#32

end Sys2Proof.Machine

/-! ## The invariant at reset and through every step

R41, R37; 20_memory.md R67, 43_sequencer.md R174. -/

namespace Sys2Proof.Machine

variable {s t u : State} {i : Instr}

/-! ### Which operation a step runs -/

theorem decodeHreq_isHost (w : BitVec 66) : (decodeHreq w).isHost = true := by
  simp only [decodeHreq]
  split
  · rfl
  · split
    · rfl
    · split <;> rfl

theorem decodeCtrlw_isHost (w : BitVec 32) : (decodeCtrlw w).isHost = true := by
  unfold decodeCtrlw
  split <;> rfl

/-- The operations a turn can run: the host's, the pass of a core turn while BUSY = 0, and while
BUSY = 1 the micro-operation the sequencer selects (43_sequencer.md R170, R172). -/
def State.MayRun (s : State) (i : Instr) : Prop :=
  i.isHost = true ∨ i = .idle ∨ (s.busy = true ∧ decodeUop s.seq = .ok i)

/-- A step is the hardware reset or runs such an operation. -/
theorem step_cases (ha : s.Admits) (h : step s = .next t) :
    t = s.takeTurn.hardReset ∨ ∃ i, s.takeTurn.MayRun i ∧ exec i s.takeTurn = .next t := by
  obtain ⟨uop, hd, hf⟩ := fetch_of_admits ha
  unfold step at h
  rw [hf] at h
  cases hn : s.nextTurn <;> simp only [hn] at h
  case core =>
    refine .inr ⟨_, ?_, h⟩
    split
    · next hb => exact .inr (.inr ⟨hb, hd⟩)
    · exact .inr (.inl rfl)
  case request w => exact .inr ⟨_, .inl (decodeHreq_isHost w), h⟩
  case command w => exact .inr ⟨_, .inl (decodeCtrlw_isHost w), h⟩
  case powerOn => exact .inl (Host.Outcome.next.inj h).symm

/-- The operation decoded from a (phase, idx) is encoded as that pair (30_encoding.md R82). -/
theorem encode_of_decodeUop {p q : BitVec 8} (h : decodeUop (uopWord p q) = .ok i) :
    encode i = .uop (uopWord p q) := by
  rcases decodeUop_uopWord_elim h with ⟨rfl, rfl, rfl⟩ | ⟨rfl, rfl, rfl⟩ | ⟨rfl, rfl, rfl⟩ |
    ⟨rfl, rfl, rfl⟩ | ⟨rfl, rfl, rfl⟩ | ⟨rfl, rfl, -⟩ | ⟨rfl, rfl, -⟩ | ⟨rfl, rfl, rfl⟩ |
    ⟨rfl, rfl, -⟩ | ⟨rfl, rfl, rfl⟩ | ⟨rfl, rfl, rfl⟩ <;> rfl

/-- No host operation is written in format UOP (R80). -/
theorem encode_ne_uop (hi : i.isHost = true) (w : BitVec 16) : encode i ≠ .uop w := by
  cases i <;> simp [Instr.isHost, encode] at hi ⊢

/-- A micro-operation other than IDLE runs only while BUSY = 1 and in the phase of its word. -/
theorem State.MayRun.busy_phase (h : s.MayRun i) (hi : i ≠ .idle) {p q : BitVec 8}
    (he : encode i = .uop (uopWord p q)) : s.busy = true ∧ s.phase = p := by
  obtain hh | rfl | ⟨hb, hd⟩ := h
  · exact absurd he (encode_ne_uop hh _)
  · exact absurd rfl hi
  · have hw : uopWord s.phase s.idx = uopWord p q :=
      Code.uop.inj ((encode_of_decodeUop hd).symm.trans he)
    rw [← uopWord_phaseField s.phase s.idx, hw, uopWord_phaseField]
    exact ⟨hb, rfl⟩

/-! ### States outside a run -/

/-- With BUSY = 0 the sequencer is at (IDLE, 0), and the invariant asks nothing of PTR and blk. -/
theorem State.Inv.of_idle (hmem : s.MemOk) (hbusy : s.busy = false) (hphase : s.phase = Phase.idle)
    (hends : ¬(s.done = true ∧ s.err = true)) (herr : s.err = true ↔ s.errcode ≠ 0#4)
    (hcode : s.errcode.toNat ≤ 2) (hseq : s.SeqOk) (hcount : s.CountOk) (hresp : s.RespOk) :
    s.Inv :=
  ⟨hmem, ⟨by simp [hbusy], hends, herr, by simp [hbusy, hphase], hcode⟩, hseq, hcount, hresp,
    by simp [hbusy]⟩

/-- (phase, idx) is legal when the word of that pair decodes. -/
theorem State.seqOk_of_decodes {p q : BitVec 8}
    (hdec : (decodeUop (uopWord p q)).toOption.isSome = true) (hp : s.phase = p) (hq : s.idx = q) :
    s.SeqOk := by
  rw [State.SeqOk, State.seq, hp, hq]; exact hdec

theorem State.seqOk_of_idle (hp : s.phase = Phase.idle) (hq : s.idx = 0#8) : s.SeqOk :=
  State.seqOk_of_decodes (by decide) hp hq

/-- R52, R240: the power-on values meet the invariant, whatever PB_BYTES is. -/
theorem State.hardReset_inv (s : State) : s.hardReset.Inv :=
  State.Inv.of_idle ⟨rfl, nofun⟩ rfl rfl (by simp [State.reset]) (by simp [State.reset])
    (by simp [State.reset]) (State.seqOk_of_idle rfl rfl) (Nat.zero_le _) nofun

/-- R52, R197: a soft reset leaves PB and the response, and clears the rest the invariant reads. -/
theorem State.Inv.softReset (h : s.Inv) : s.softReset.Inv := by
  obtain ⟨hmem, -, -, -, hresp, -⟩ := h
  exact State.Inv.of_idle hmem rfl rfl (by simp) (by simp) (by simp)
    (State.seqOk_of_idle rfl rfl) (Nat.zero_le _) hresp

/-- 60_exceptions.md R222: a refused START clears DONE and NBLK and records its code. -/
theorem State.Inv.startRefused (h : s.Inv) (hb : s.busy = false) {c : BitVec 4}
    (hc : c = 1#4 ∨ c = 2#4) : (s.clearForStart.raiseErr c).Inv := by
  obtain ⟨hmem, ⟨-, -, -, hidle, -⟩, hseq, -, hresp, -⟩ := h
  have hcode : c ≠ 0#4 ∧ c.toNat ≤ 2 := by obtain rfl | rfl := hc <;> decide
  exact State.Inv.of_idle hmem hb (hidle.mp hb) (by simp) (by simp [hcode.1]) hcode.2 hseq
    (Nat.zero_le _) hresp

/-! ### Where a run stands -/

/-- The phases in which the blocks are processed. -/
def blockPhases : List (BitVec 8) :=
  [Phase.schedLoad, Phase.schedExp, Phase.wvInit, Phase.round, Phase.accum, Phase.blockNext]

theorem State.inBlocks_iff : s.inBlocks ↔ s.phase ∈ blockPhases := Iff.rfl

theorem ne_of_mem_blockPhases : ∀ p ∈ blockPhases, p ≠ Phase.idle ∧ p ≠ Phase.initH ∧
    p ≠ Phase.padMark ∧ p ≠ Phase.padZero ∧ p ≠ Phase.padLen := by decide

/-- R196: where a run starts, and where INIT_H leaves it. -/
theorem State.runOk_of_start (hfit : s.LengthFits)
    (hphase : s.phase = Phase.initH ∨ s.phase = Phase.padMark) (hptr : s.ptr = s.len)
    (hblk : s.blk = 0#64) : s.RunOk := by
  have hother : s.phase ≠ Phase.padZero ∧ s.phase ≠ Phase.padLen ∧ ¬s.inBlocks := by
    rw [State.inBlocks_iff]
    obtain hp | hp := hphase <;> rw [hp] <;> decide
  obtain ⟨hzero, hlen, hin⟩ := hother
  exact ⟨hfit.1, hfit.2, fun _ => ⟨hptr, hblk⟩, fun _ => ⟨hptr, hblk⟩, (absurd · hzero),
    (absurd · hlen), (absurd · hin)⟩

/-- 40_padding.md R107: beyond the message, PTR mod 64 = 56 exactly where the eight bytes of the
length end the padded message, since PBLEN(L) is the first multiple of 64 with room for them. -/
theorem ptr_at_padLen_iff {len ptr : Nat} (hlo : len < ptr) (hhi : ptr + 8 ≤ pbLen len) :
    ptr % 64 = 56 ↔ ptr + 8 = pbLen len := by
  unfold pbLen at *
  omega

/-- Where the padding stands after a byte was appended (R104, R105, R108). -/
theorem State.runOk_of_padding (hfit : s.LengthFits)
    (hphase : s.phase = if s.ptr.toNat % 64 = 56 then Phase.padLen else Phase.padZero)
    (hlo : s.len.toNat < s.ptr.toNat) (hhi : s.ptr.toNat + 8 ≤ pbLen s.len.toNat)
    (hblk : s.blk = 0#64) : s.RunOk := by
  have hother : s.phase ≠ Phase.initH ∧ s.phase ≠ Phase.padMark ∧ ¬s.inBlocks := by
    rw [State.inBlocks_iff, hphase]
    split <;> decide
  obtain ⟨hinit, hmark, hin⟩ := hother
  have hzero : s.phase = Phase.padZero → s.ptr.toNat % 64 ≠ 56 := by
    intro hp h56
    rw [hphase, if_pos h56] at hp
    exact absurd hp (by decide)
  have hlen : s.phase = Phase.padLen → s.ptr.toNat % 64 = 56 := by
    intro hp
    by_contra h56
    rw [hphase, if_neg h56] at hp
    exact absurd hp (by decide)
  have hend := ptr_at_padLen_iff hlo hhi
  exact ⟨hfit.1, hfit.2, (absurd · hinit), (absurd · hmark),
    fun hp => ⟨hlo, lt_of_le_of_ne hhi (mt hend.mpr (hzero hp)), hblk⟩,
    fun hp => ⟨hend.mp (hlen hp), hblk⟩, (absurd · hin)⟩

/-- Where a run stands within its blocks (43_sequencer.md R173). -/
theorem State.runOk_of_inBlocks (hfit : s.LengthFits) (hin : s.inBlocks)
    (hnblk : 64 * s.nblk.toNat = pbLen s.len.toNat) (hblk : s.blk.toNat < s.nblk.toNat) :
    s.RunOk := by
  obtain ⟨-, hinit, hmark, hzero, hlen⟩ := ne_of_mem_blockPhases _ hin
  exact ⟨hfit.1, hfit.2, (absurd · hinit), (absurd · hmark), (absurd · hzero), (absurd · hlen),
    fun _ => ⟨hnblk, hblk⟩⟩

/-! ### States within a run -/

/-- A state with BUSY = 1 meets the invariant when it stands legally in a run. -/
theorem State.Inv.of_busy (hmem : s.MemOk) (hbusy : s.busy = true) (hphase : s.phase ≠ Phase.idle)
    (hdone : s.done = false) (herr : s.err = false) (hcode : s.errcode = 0#4) (hseq : s.SeqOk)
    (hcount : s.CountOk) (hresp : s.RespOk) (hrun : s.RunOk) : s.Inv :=
  ⟨hmem, ⟨fun _ => ⟨hdone, herr⟩, by simp [hdone], by simp [herr, hcode],
    by simp [hbusy, hphase], by simp [hcode]⟩, hseq, hcount, hresp, fun _ => hrun⟩

/-- R41: within a run neither outcome is recorded. -/
theorem State.Inv.busy_status (h : s.Inv) (hb : s.busy = true) :
    s.done = false ∧ s.err = false ∧ s.errcode = 0#4 := by
  obtain ⟨-, ⟨hbusy, -, herr, -, -⟩, -⟩ := h
  obtain ⟨hd, he⟩ := hbusy hb
  exact ⟨hd, he, by simpa [he] using herr⟩

/-- 44_host_interface.md R196: an accepted START begins a run. -/
theorem State.Inv.startAccepted (h : s.Inv) (hfit : s.LengthFits) :
    s.clearForStart.beginRun.Inv := by
  obtain ⟨hmem, -, -, -, hresp, -⟩ := h
  exact State.Inv.of_busy hmem rfl (by simp) rfl rfl rfl
    (State.seqOk_of_decodes (p := Phase.initH) (q := 0#8) (by decide) rfl rfl) (Nat.zero_le _) hresp
    (State.runOk_of_start hfit (.inl rfl) rfl rfl)

/-- A core step that stays in the run leaves BUSY, the outcome, L and the response alone. It keeps
the invariant where it leaves PB, the sequencer, NBLK and the run's place legal. -/
theorem State.Inv.coreStep (h : s.Inv) (hb : s.busy = true) {hs wv : Vector Word 8}
    {w : Vector Word 64} {p q : BitVec 8} {ptr blk nblk : BitVec 64} {pb : Memory} {d : Nat}
    (ht : t = { s with
      hs := hs, wv := wv, w := w, phase := p, idx := q, ptr := ptr, blk := blk, nblk := nblk
      pb := pb, draws := d })
    (hne : p ≠ Phase.idle) (hdec : (decodeUop (uopWord p q)).toOption.isSome = true)
    (hmem : pb.wf = true ∧ pb.Below s.pbBytes) (hcount : 64 * nblk.toNat ≤ s.pbBytes)
    (hrun : t.LengthFits → t.RunOk) : t.Inv := by
  subst ht
  obtain ⟨hdone, herr, hcode⟩ := h.busy_status hb
  obtain ⟨-, -, -, -, hresp, hplace⟩ := h
  obtain ⟨hlen, hfit, -⟩ := hplace hb
  exact State.Inv.of_busy hmem hb hne hdone herr hcode (State.seqOk_of_decodes hdec rfl rfl) hcount
    hresp (hrun ⟨hlen, hfit⟩)

/-! ### The micro-operations -/

theorem State.Inv.initH (h : s.Inv) (hb : s.busy = true) (hp : s.phase = Phase.initH) :
    ({ s with hs := ivRom }.goto Phase.padMark 0#8).Inv := by
  obtain ⟨hmem, -, -, hcount, -, hrun⟩ := id h
  obtain ⟨-, -, hinit, -⟩ := hrun hb
  obtain ⟨hptr, hblk⟩ := hinit hp
  exact h.coreStep hb rfl (by decide) (by decide) hmem hcount fun hfit =>
    State.runOk_of_start hfit (.inr rfl) hptr hblk

/-- PTR and blk while the padding appends single bytes: nine bytes fit before PBLEN(L). -/
theorem State.Inv.padding_room (h : s.Inv) (hb : s.busy = true)
    (hp : s.phase = Phase.padMark ∨ s.phase = Phase.padZero) :
    s.len.toNat ≤ s.ptr.toNat ∧ s.ptr.toNat + 9 ≤ pbLen s.len.toNat ∧ s.blk = 0#64 := by
  obtain ⟨-, -, -, -, -, hrun⟩ := h
  obtain ⟨-, -, -, hmark, hzero, -⟩ := hrun hb
  obtain hp | hp := hp
  · obtain ⟨hptr, hblk⟩ := hmark hp
    exact ⟨by rw [hptr], by rw [hptr, pbLen]; omega, hblk⟩
  · obtain ⟨hlo, hhi, hblk⟩ := hzero hp
    exact ⟨by omega, by omega, hblk⟩

/-- The point of the sequencer after an appended byte is legal. -/
theorem decodes_after_padByte (ptr : BitVec 64) :
    (if ptr.toNat % 64 = 56 then Phase.padLen else Phase.padZero) ≠ Phase.idle ∧
    (decodeUop (uopWord (if ptr.toNat % 64 = 56 then Phase.padLen else Phase.padZero)
      0#8)).toOption.isSome = true := by
  split <;> decide

/-- PAD_MARK and PAD_ZERO append a byte below PBLEN(L) (40_padding.md R104, R105). -/
theorem State.Inv.padByte (h : s.Inv) (hb : s.busy = true)
    (hp : s.phase = Phase.padMark ∨ s.phase = Phase.padZero) (b : Byte)
    (hptr : s.ptr.toNat < s.pbBytes) :
    { s with
      pb := s.pb.set s.ptr.toNat b
      ptr := s.ptr + 1#64
      phase := if (s.ptr + 1#64).toNat % 64 = 56 then Phase.padLen else Phase.padZero
      idx := 0#8 : State }.Inv := by
  obtain ⟨hlo, hhi, hblk⟩ := h.padding_room hb hp
  obtain ⟨⟨hwf, hbelow⟩, -, -, hcount, -, -⟩ := id h
  have hsize := s.pbBytes_bounds
  have hnext : (s.ptr + 1#64).toNat = s.ptr.toNat + 1 := by
    rw [BitVec.toNat_add, BitVec.toNat_ofNat]; omega
  obtain ⟨hne, hdec⟩ := decodes_after_padByte (s.ptr + 1#64)
  exact h.coreStep hb rfl hne hdec ⟨Memory.wf_set _ _ hwf, Memory.below_set _ hbelow hptr⟩ hcount
    fun hfit => State.runOk_of_padding hfit rfl (by dsimp only; omega) (by dsimp only; omega) hblk

/-- PAD_LEN completes the padded message and counts its blocks (40_padding.md R106). -/
theorem State.Inv.padLen (h : s.Inv) (hb : s.busy = true) (hp : s.phase = Phase.padLen)
    (hptr : s.ptr.toNat + 8 ≤ s.pbBytes) :
    { s with
      pb := s.pb.setBytes s.ptr.toNat (be64 (bitLen s.len))
      nblk := (s.ptr + 8#64) >>> 6
      ptr := s.ptr + 8#64
      phase := Phase.schedLoad
      idx := 0#8 : State }.Inv := by
  obtain ⟨⟨hwf, hbelow⟩, -, -, -, -, hrun⟩ := id h
  obtain ⟨-, hfit, -, -, -, hpad, -⟩ := hrun hb
  obtain ⟨hend, hblk⟩ := hpad hp
  have hsize := s.pbBytes_bounds
  have hnblk : 64 * ((s.ptr + 8#64) >>> 6).toNat = pbLen s.len.toNat := by
    rw [BitVec.toNat_ushiftRight, BitVec.toNat_add, BitVec.toNat_ofNat, Nat.shiftRight_eq_div_pow]
    unfold pbLen at *
    omega
  have hpos : s.blk.toNat < ((s.ptr + 8#64) >>> 6).toNat := by
    rw [hblk]
    unfold pbLen at hnblk
    simp only [BitVec.toNat_ofNat]
    omega
  exact h.coreStep hb rfl (by decide) (by decide)
    ⟨Memory.wf_setBytes _ _ hwf, Memory.below_setBytes _ hbelow (by rwa [be64_length])⟩
    (hnblk.trans_le hfit) fun hfit =>
    State.runOk_of_inBlocks hfit (State.inBlocks_iff.mpr List.mem_cons_self) hnblk hpos

/-- NBLK and blk while the blocks are processed. -/
theorem State.Inv.block_counters (h : s.Inv) (hb : s.busy = true) (hin : s.inBlocks) :
    64 * s.nblk.toNat = pbLen s.len.toNat ∧ s.blk.toNat < s.nblk.toNat := by
  obtain ⟨-, -, -, -, -, hrun⟩ := h
  obtain ⟨-, -, -, -, -, -, hplace⟩ := hrun hb
  exact hplace hin

/-- A core step from one micro-operation of the blocks to another, in the same block or in a next
one that NBLK counts. -/
theorem State.Inv.blockStep (h : s.Inv) (hb : s.busy = true) (hin : s.phase ∈ blockPhases)
    {hs wv : Vector Word 8} {w : Vector Word 64} {p q : BitVec 8} {blk : BitVec 64} {d : Nat}
    (ht : t = { s with hs := hs, wv := wv, w := w, phase := p, idx := q, blk := blk, draws := d })
    (hblk : blk = s.blk ∨ blk.toNat < s.nblk.toNat)
    (hnext : p ∈ blockPhases ∧ (decodeUop (uopWord p q)).toOption.isSome = true) : t.Inv := by
  obtain ⟨hpin, hdec⟩ := hnext
  obtain ⟨hn, hlt⟩ := h.block_counters hb hin
  obtain ⟨hmem, -, -, hcount, -, -⟩ := id h
  obtain ⟨hidle, -⟩ := ne_of_mem_blockPhases p hpin
  have hblk' : blk.toNat < s.nblk.toNat := by
    obtain rfl | hblk := hblk
    · exact hlt
    · exact hblk
  subst ht
  exact h.coreStep hb rfl hidle hdec hmem hcount fun hfit =>
    State.runOk_of_inBlocks hfit (State.inBlocks_iff.mpr hpin) hn hblk'

/-- BLOCK_NEXT after the last block ends the run with DONE (R173). -/
theorem State.Inv.runEnd (h : s.Inv) (hb : s.busy = true) :
    ({ s with blk := s.blk + 1#64, busy := false, done := true }.goto Phase.idle 0#8).Inv := by
  obtain ⟨-, herr, hcode⟩ := h.busy_status hb
  obtain ⟨hmem, -, -, hcount, hresp, -⟩ := h
  exact State.Inv.of_idle hmem rfl rfl (by simp [herr]) (by simp [herr, hcode]) (by simp [hcode])
    (State.seqOk_of_idle rfl rfl) hcount hresp

/-- Each legal index of SCHED_LOAD is followed by a legal point within the blocks. -/
theorem decodes_after_schedLoad : ∀ t : BitVec 8, t.toNat < 16 →
    (if t.toNat < 15 then Phase.schedLoad else Phase.schedExp) ∈ blockPhases ∧
    (decodeUop (uopWord (if t.toNat < 15 then Phase.schedLoad else Phase.schedExp)
      (if t.toNat < 15 then t + 1#8 else 16#8))).toOption.isSome = true := by decide

/-- The same of SCHED_EXP. -/
theorem decodes_after_schedExp : ∀ t : BitVec 8, 16 ≤ t.toNat ∧ t.toNat < 64 →
    (if t.toNat < 63 then Phase.schedExp else Phase.wvInit) ∈ blockPhases ∧
    (decodeUop (uopWord (if t.toNat < 63 then Phase.schedExp else Phase.wvInit)
      (if t.toNat < 63 then t + 1#8 else 0#8))).toOption.isSome = true := by decide

/-- The same of ROUND. -/
theorem decodes_after_round : ∀ t : BitVec 8, t.toNat < 64 →
    (if t.toNat < 63 then Phase.round else Phase.accum) ∈ blockPhases ∧
    (decodeUop (uopWord (if t.toNat < 63 then Phase.round else Phase.accum)
      (if t.toNat < 63 then t + 1#8 else 0#8))).toOption.isSome = true := by decide

/-! ### The host's operations and the step -/

/-- What a host operation does before its response keeps the invariant. LEN and PB are written only
outside a run, where the invariant does not tie them to PTR, blk and NBLK. -/
theorem HostEffect.inv (hu : HostEffect s i u) (h : s.Inv) : u.Inv := by
  cases hu with
  | unchanged d => exact h
  | softReset _ => exact h.softReset
  | startRefused _ hb c hc => exact h.startRefused hb hc
  | startAccepted _ _ hfit => exact h.startAccepted hfit
  | lenWrite _ _ hb l =>
    obtain ⟨hmem, hstatus, hseq, hcount, hresp, -⟩ := h
    exact ⟨hmem, hstatus, hseq, hcount, hresp, fun hb' => absurd hb' (by simp [hb])⟩
  | irqenWrite _ _ => exact h
  | msgWrite addr d _ hb ha =>
    obtain ⟨⟨hwf, hbelow⟩, hstatus, hseq, hcount, hresp, -⟩ := h
    exact ⟨⟨Memory.wf_set _ _ hwf, Memory.below_set _ hbelow ha⟩, hstatus, hseq, hcount, hresp,
      fun hb' => absurd hb' (by simp [hb])⟩

/-- Recording a well-formed response (30_encoding.md R84) keeps the invariant. -/
theorem State.Inv.record (h : s.Inv) {r : HResp} (hr : r.err = true → r.rdata = 0#32) :
    { s with hresp := some r : State }.Inv := by
  obtain ⟨hmem, hstatus, hseq, hcount, -, hrun⟩ := h
  exact ⟨hmem, hstatus, hseq, hcount, fun r' hr' => by obtain rfl := Option.some.inj hr'; exact hr,
    hrun⟩

/-- An operation that a turn can run keeps the invariant. -/
theorem Effect.inv (he : Effect s i t) (hi : s.MayRun i) (h : s.Inv) : t.Inv := by
  cases he with
  | idle => exact h
  | host _ hu r hr => exact (hu.inv h).record hr
  | initH =>
    obtain ⟨hb, hp⟩ := hi.busy_phase nofun rfl
    exact h.initH hb hp
  | padByte hpad b hptr =>
    obtain rfl | rfl := hpad <;> obtain ⟨hb, hp⟩ := hi.busy_phase nofun rfl
    · exact h.padByte hb (.inl hp) b hptr
    · exact h.padByte hb (.inr hp) b hptr
  | padLen hptr =>
    obtain ⟨hb, hp⟩ := hi.busy_phase nofun rfl
    exact h.padLen hb hp hptr
  | schedLoad n hn _ =>
    obtain ⟨hb, hp⟩ := hi.busy_phase nofun rfl
    exact h.blockStep hb (hp ▸ by decide) rfl (.inl rfl) (decodes_after_schedLoad n hn)
  | schedExp n hn =>
    obtain ⟨hb, hp⟩ := hi.busy_phase nofun rfl
    exact h.blockStep hb (hp ▸ by decide) rfl (.inl rfl) (decodes_after_schedExp n hn)
  | wvInit =>
    obtain ⟨hb, hp⟩ := hi.busy_phase nofun rfl
    exact h.blockStep hb (hp ▸ by decide) rfl (.inl rfl) (by decide)
  | round n hn =>
    obtain ⟨hb, hp⟩ := hi.busy_phase nofun rfl
    exact h.blockStep hb (hp ▸ by decide) rfl (.inl rfl) (decodes_after_round n hn)
  | accum =>
    obtain ⟨hb, hp⟩ := hi.busy_phase nofun rfl
    exact h.blockStep hb (hp ▸ by decide) rfl (.inl rfl) (by decide)
  | blockMore hblk =>
    obtain ⟨hb, hp⟩ := hi.busy_phase nofun rfl
    exact h.blockStep hb (hp ▸ by decide) rfl (.inr hblk) (by decide)
  | runEnd _ =>
    obtain ⟨hb, -⟩ := hi.busy_phase nofun rfl
    exact h.runEnd hb

/-- The invariant does not read the turns to come. -/
theorem State.Inv.takeTurn (h : s.Inv) : s.takeTurn.Inv := h

theorem State.Inv.admits (h : s.Inv) : s.Admits := by
  obtain ⟨-, ⟨-, -, -, -, hcode⟩, hseq, -⟩ := h
  exact ⟨hcode, hseq⟩

/-- Settles O59: a step is the hardware reset, whose values meet the invariant, or runs an operation
that a turn can run, each effect of which keeps it. -/
theorem stepKeepsInvariant : Obligations.StepKeepsInvariant := by
  intro s t h hstep
  obtain rfl | ⟨i, hi, hexec⟩ := step_cases h.admits hstep
  · exact s.takeTurn.hardReset_inv
  · exact (exec_effect hexec).inv hi h.takeTurn

/-- Settles O58, part by part on the fixed state. -/
theorem invariantHoldsAtReset : Obligations.InvariantHoldsAtReset :=
  State.Inv.of_idle (by decide) rfl rfl (by decide) (by decide) (by decide) (by decide) (by decide)
    (by decide)

end Sys2Proof.Machine

/-! ## Which operation writes which register (R31 to R33, R36 to R38, R41 to R45) -/

namespace Sys2Proof.Machine

/-- Settles O48: HS, WV and W stand in the effects of their two writers alone. -/
theorem registerFileWriters : Obligations.RegisterFileWriters := by
  intro i s t h
  cases exec_effect h with
  | initH => exact ⟨.inr (.inl rfl), .inl rfl, .inl rfl⟩
  | accum => exact ⟨.inr (.inr rfl), .inl rfl, .inl rfl⟩
  | wvInit => exact ⟨.inl rfl, .inr (.inl rfl), .inl rfl⟩
  | round n _ => exact ⟨.inl rfl, .inr (.inr ⟨n, rfl⟩), .inl rfl⟩
  | schedLoad n _ _ => exact ⟨.inl rfl, .inl rfl, .inr (.inl ⟨n, rfl⟩)⟩
  | schedExp n _ => exact ⟨.inl rfl, .inl rfl, .inr (.inr ⟨n, rfl⟩)⟩
  | host _ hu r _ => cases hu <;> exact ⟨.inl rfl, .inl rfl, .inl rfl⟩
  | _ => exact ⟨.inl rfl, .inl rfl, .inl rfl⟩

/-- Settles O49: L and IRQEN stand in the effects of their register writes alone, the size of PB and
the turns to come in none. -/
theorem configurationWriters : Obligations.ConfigurationWriters := by
  intro i s t h
  cases exec_effect h with
  | host _ hu r _ =>
    cases hu with
    | lenWrite d hi hb l => exact ⟨.inr ⟨hb, d, hi⟩, .inl ⟨rfl, rfl⟩, rfl, rfl, rfl⟩
    | irqenWrite d hi => exact ⟨.inl rfl, .inr ⟨d, hi⟩, rfl, rfl, rfl⟩
    | _ => exact ⟨.inl rfl, .inl ⟨rfl, rfl⟩, rfl, rfl, rfl⟩
  | _ => exact ⟨.inl rfl, .inl ⟨rfl, rfl⟩, rfl, rfl, rfl⟩

/-- Settles O50: the padding unit moves PTR, PAD_LEN also NBLK, BLOCK_NEXT moves blk and ends the
run; beside them only a soft reset and an idle START touch these fields. -/
theorem statusAndCounterWriters : Obligations.StatusAndCounterWriters := by
  intro i s t h cleared
  by_cases hc : cleared
  · exact ⟨.inr hc, .inr (.inl hc), .inr (.inl hc), .inr (.inl hc), .inr (.inl hc)⟩
  cases exec_effect h with
  | padByte hi b _ =>
    exact ⟨.inl ⟨rfl, rfl⟩, .inl ⟨rfl, rfl⟩, .inl rfl, .inr (.inr (hi.imp_right .inl)), .inl rfl⟩
  | padLen _ =>
    exact ⟨.inl ⟨rfl, rfl⟩, .inl ⟨rfl, rfl⟩, .inr (.inr rfl), .inr (.inr (.inr (.inr rfl))),
      .inl rfl⟩
  | blockMore _ =>
    exact ⟨.inl ⟨rfl, rfl⟩, .inl ⟨rfl, rfl⟩, .inl rfl, .inl rfl, .inr (.inr rfl)⟩
  | runEnd _ =>
    exact ⟨.inl ⟨rfl, rfl⟩, .inr (.inr rfl), .inl rfl, .inl rfl, .inr (.inr rfl)⟩
  | host _ hu r _ =>
    cases hu with
    | softReset hi => exact absurd (.inl hi) hc
    | startRefused hi hb _ _ => exact absurd (.inr ⟨hi, hb⟩) hc
    | startAccepted hi hb _ => exact absurd (.inr ⟨hi, hb⟩) hc
    | _ => exact ⟨.inl ⟨rfl, rfl⟩, .inl ⟨rfl, rfl⟩, .inl rfl, .inl rfl, .inl rfl⟩
  | _ => exact ⟨.inl ⟨rfl, rfl⟩, .inl ⟨rfl, rfl⟩, .inl rfl, .inl rfl, .inl rfl⟩

/-- Settles O27: among the host's effects only a soft reset and an accepted START move the
sequencer; every other effect is a micro-operation's. -/
theorem sequencerChangesOnlyBy : Obligations.SequencerChangesOnlyBy := by
  intro i s t h hmove
  cases exec_effect h with
  | padByte hi _ _ => obtain rfl | rfl := hi <;> exact .inl rfl
  | host _ hu r _ =>
    cases hu with
    | softReset hi => exact .inr (.inl hi)
    | startAccepted hi hb hfit => exact .inr (.inr ⟨hi, hb, hfit⟩)
    | _ => exact absurd hmove (by simp)
  | _ => exact .inl rfl

end Sys2Proof.Machine

/-! ## The registers the host reads, the ports and the reset values (R39, R46, R47, R50, R52) -/

namespace Sys2Proof.Machine

/-- Settles O54: the fields of the reset state, and no byte listed in PB. -/
theorem resetValues : Obligations.ResetValues :=
  ⟨rfl, rfl, rfl, rfl, rfl, rfl, rfl, rfl, rfl, rfl, rfl, rfl, rfl, fun _ => rfl⟩

variable {s : State} {addr : Word} {r : Reg}

/-- What a REG_READ of a register answers (44_host_interface.md R191). -/
theorem exec_regRead (hr : regNamed addr = some r) (data : Word) :
    exec (.regRead addr data) s =
      .next ({ s with draws := (s.regValue r).2 }.respondOk (s.regValue r).1) := by
  simp only [exec, execRegRead, hr]

/-- The registers whose writes have an effect (R39, R192). -/
def Reg.writable : Reg → Bool
  | .ctrl | .lenLo | .lenHi | .irqen => true
  | .status | .seq | .nblk | .digest _ | .reserved => false

/-- A write to any other register is ignored with OK (R47, R192). -/
theorem exec_regWrite_ignored (hr : regNamed addr = some r) (hw : r.writable = false)
    (data : Word) : exec (.regWrite addr data) s = .next (s.respondOk 0#32) := by
  simp only [exec, execRegWrite, hr]
  cases r with
  | ctrl | lenLo | lenHi | irqen => cases hw
  | _ => rfl

/-- DIGESTi lies at 0x20 + 4i (R39). -/
theorem regNamed_digest {i : Nat} (hi : i < 8) :
    regNamed (BitVec.ofNat 32 (0x20 + 4 * i)) = some (.digest ⟨i, hi⟩) := by
  have hat : ∀ j : Fin 8, regAt (BitVec.ofNat 8 (0x20 + 4 * j.val)) = .digest j := by decide
  rw [regNamed_ofNat (by omega) (by omega), hat ⟨i, hi⟩]

/-- The offsets 0x1C and 0x40 .. 0xFC are reserved (R39, 20_memory.md R70). -/
theorem regNamed_reserved {off : Nat} (hlt : off < 0x100) (h4 : off % 4 = 0)
    (hoff : off = 0x1C ∨ 0x40 ≤ off) : regNamed (BitVec.ofNat 32 off) = some .reserved := by
  have hat : ∀ k < 64, k = 7 ∨ 16 ≤ k → regAt (BitVec.ofNat 8 (4 * k)) = .reserved := by decide
  rw [regNamed_ofNat hlt h4, ← hat (off / 4) (by omega) (by omega),
    show 4 * (off / 4) = off by omega]

/-- Only the offsets of CTRL, LEN_LO, LEN_HI and IRQEN name a writable register. -/
theorem not_writable_of_offset {off : Nat} (hlt : off < 0x100) (h4 : off % 4 = 0)
    (hoff : off ∉ [0x00, 0x08, 0x0C, 0x10]) : (regAt (BitVec.ofNat 8 off)).writable = false := by
  have hat : ∀ k < 64, 4 * k ∉ [0x00, 0x08, 0x0C, 0x10] →
      (regAt (BitVec.ofNat 8 (4 * k))).writable = false := by decide
  obtain ⟨k, rfl⟩ : ∃ k, off = 4 * k := ⟨off / 4, by omega⟩
  exact hat k (by omega) hoff

/-- Settles O32: a DIGESTi read answers what `regValue` gives, by DONE. -/
theorem digestReadsHashState : Obligations.DigestReadsHashState := by
  intro s data i hi
  rw [exec_regRead (regNamed_digest hi)]
  constructor
  · intro hd
    simp only [State.regValue, hd]
    rfl
  · intro hd
    exact ⟨_, _, rfl, rfl⟩

/-- Settles O33: the reserved register reads as zero without a draw, and no write outside the four
offsets reaches a writable register. -/
theorem reservedAndReadOnlyOffsets : Obligations.ReservedAndReadOnlyOffsets := by
  intro s data off hlt h4
  constructor
  · intro hoff
    exact exec_regRead (regNamed_reserved hlt h4 hoff) data
  · intro hoff
    exact exec_regWrite_ignored (regNamed_ofNat hlt h4) (not_writable_of_offset hlt h4 hoff) data

/-! ### digest_out -/

/-- An element of a concatenation of lists of one length n, by its quotient and remainder. -/
theorem getElem?_flatMap_of_length {α β : Type} {n : Nat} {f : α → List β}
    (hf : ∀ a, (f a).length = n) (l : List α) (i : Nat) {j : Nat} (hj : j < n) :
    (l.flatMap f)[n * i + j]? = l[i]?.bind fun a => (f a)[j]? := by
  induction l generalizing i with
  | nil => simp
  | cons a l ih =>
    rw [List.flatMap_cons]
    cases i with
    | zero => simp [List.getElem?_append_left, hf, hj]
    | succ i =>
      have hidx : n * (i + 1) + j = (f a).length + (n * i + j) := by rw [hf]; ring
      rw [hidx, List.getElem?_append_right (by omega), Nat.add_sub_cancel_left, ih]
      rfl

/-- Byte 4i + j of the digest (42_compression.md R151). -/
theorem digest_getElem? (h : Vector Word 8) {i j : Nat} (hi : i < 8) (hj : j < 4) :
    (digest h)[4 * i + j]? = some (h[i].extractLsb' (24 - 8 * j) 8) := by
  rw [digest, getElem?_flatMap_of_length (n := 4) (fun _ => by simp [be32]) _ i hj]
  simp [hi, hj, be32]

/-- Word i lies above the 7 - i words after it (R50). -/
theorem hashBits_getLsbD (h : Vector Word 8) {i b : Nat} (hi : i < 8) (hb : b < 32) :
    (hashBits h).getLsbD (224 - 32 * i + b) = h[i].getLsbD b := by
  simp only [hashBits, BitVec.getLsbD_append]
  interval_cases i <;> grind

/-- Byte 4i + j of the 256 bits from the top is byte j of word i. -/
theorem hashBits_byte (h : Vector Word 8) {i j : Nat} (hi : i < 8) (hj : j < 4) :
    (hashBits h).extractLsb' (248 - 8 * (4 * i + j)) 8 = h[i].extractLsb' (24 - 8 * j) 8 := by
  apply BitVec.eq_of_getLsbD_eq
  intro b hb
  have hpos : 248 - 8 * (4 * i + j) + b = 224 - 32 * i + (24 - 8 * j + b) := by omega
  rw [BitVec.getLsbD_extractLsb', BitVec.getLsbD_extractLsb', hpos,
    hashBits_getLsbD h hi (by omega)]

/-- Settles O12: byte k = 4i + j from the top lies in word i of HS, where the digest takes it. -/
theorem digestPortReadsDigest : Obligations.DigestPortReadsDigest := by
  intro s hd k hk
  obtain ⟨i, j, hi, hj, rfl⟩ : ∃ i j, i < 8 ∧ j < 4 ∧ k = 4 * i + j :=
    ⟨k / 4, k % 4, by omega, by omega, by omega⟩
  rw [State.digestOut, if_pos hd, hashBits_byte _ hi hj, digest_getElem? _ hi hj]

end Sys2Proof.Machine

/-! ## When an operation answers, faults or is refused (R60, R67; 30_encoding.md R88)

An operation with a legal index operand whose bytes of PB exist answers a next state, one that
addresses a byte outside PB faults, and one with an illegal operand is refused: three exclusive
cases that cover every operation and state. -/

namespace Sys2Proof.Machine

variable {s : State} {i : Instr}

/-- Every byte of PB that the core addresses in this operation lies below PB_BYTES. A host access
outside PB is answered BUSERR and does not count (60_exceptions.md R225). -/
def State.PbInRange (s : State) : Instr → Prop
  | .padMark | .padZero => s.ptr.toNat < s.pbBytes
  | .padLen => s.ptr.toNat + 8 ≤ s.pbBytes
  | .schedLoad t => s.blockWordAddr t.toNat + 4 ≤ s.pbBytes
  | .idle | .initH | .schedExp _ | .wvInit | .round _ | .accum | .blockNext => True
  | .regRead _ _ | .regWrite _ _ | .msgRead _ _ | .msgWrite _ _ => True
  | .ctrlSreset _ _ | .ctrlStart _ | .ctrlNop _ => True

/-- Host operations have no index operand and are in range. -/
theorem wf_and_pbInRange_of_isHost (s : State) (hi : i.isHost = true) :
    i.wf = true ∧ s.PbInRange i := by
  cases i with
  | regRead _ _ | regWrite _ _ | msgRead _ _ | msgWrite _ _ => exact ⟨rfl, trivial⟩
  | ctrlSreset _ _ | ctrlStart _ | ctrlNop _ => exact ⟨rfl, trivial⟩
  | _ => cases hi

/-- A choice between two answers is an answer. -/
theorem answers_ite (c : Prop) [Decidable c] (u v : State) :
    ∃ t, (if c then .next u else .next v : Result) = .next t :=
  ⟨if c then u else v, (apply_ite _ c u v).symm⟩

theorem execRegRead_answers (addr data : Word) (s : State) :
    ∃ t, execRegRead addr data s = .next t := by
  unfold execRegRead
  cases regNamed addr <;> exact ⟨_, rfl⟩

theorem execRegWrite_answers (addr data : Word) (s : State) :
    ∃ t, execRegWrite addr data s = .next t := by
  unfold execRegWrite
  cases regNamed addr with
  | none => exact ⟨_, rfl⟩
  | some r =>
    cases r with
    | ctrl =>
      obtain ⟨u, hu, -⟩ := runCommand_next data s
      exact ⟨_, hu⟩
    | lenLo | lenHi => exact answers_ite _ _ _
    | _ => exact ⟨_, rfl⟩

theorem execMsgRead_answers (addr data : Word) (s : State) :
    ∃ t, execMsgRead addr data s = .next t := by
  unfold execMsgRead
  cases s.msgIndex addr with
  | none => exact ⟨_, rfl⟩
  | some a => exact answers_ite _ _ _

theorem execMsgWrite_answers (addr data : Word) (s : State) :
    ∃ t, execMsgWrite addr data s = .next t := by
  unfold execMsgWrite
  cases s.msgIndex addr with
  | none => exact ⟨_, rfl⟩
  | some a => exact answers_ite _ _ _

/-- In range and with a legal operand, every operation answers a next state. -/
theorem exec_answers (hwf : i.wf = true) (hin : s.PbInRange i) : ∃ t, exec i s = .next t := by
  cases i with
  | padMark | padZero => exact ⟨_, appendPad_next _ hin⟩
  | padLen => exact ⟨_, execPadLen_next hin⟩
  | schedLoad n => exact ⟨_, execSchedLoad_next (by simpa [Instr.wf] using hwf) hin⟩
  | schedExp n => exact ⟨_, execSchedExp_next (by simpa [Instr.wf] using hwf)⟩
  | round n => exact ⟨_, execRound_next (by simpa [Instr.wf] using hwf)⟩
  | regRead addr data => exact execRegRead_answers addr data s
  | regWrite addr data => exact execRegWrite_answers addr data s
  | msgRead addr data => exact execMsgRead_answers addr data s
  | msgWrite addr data => exact execMsgWrite_answers addr data s
  | _ => exact ⟨_, rfl⟩

/-- Out of range and with a legal operand, an operation faults (log entry 10). -/
theorem exec_fault (hwf : i.wf = true) (hout : ¬s.PbInRange i) :
    exec i s = .fault .pbOutOfRange := by
  cases i with
  | padMark | padZero => exact appendPad_fault _ hout
  | padLen => exact if_neg hout
  | schedLoad n =>
    have hn : n.toNat < 16 := by simpa [Instr.wf] using hwf
    exact (dif_pos hn).trans (if_neg hout)
  | _ => exact absurd trivial hout

/-- An index operand outside its row's range is refused (log entry 11). -/
theorem exec_refused (hwf : i.wf = false) : exec i s = .refused .reservedUop := by
  cases i with
  | schedLoad n => exact dif_neg (by simpa [Instr.wf] using hwf)
  | schedExp n => exact dif_neg (by simpa [Instr.wf] using hwf)
  | round n => exact dif_neg (by simpa [Instr.wf] using hwf)
  | _ => cases hwf

/-- The only fault, and when it is raised. -/
theorem exec_eq_fault_iff {f : Fault} :
    exec i s = .fault f ↔ f = .pbOutOfRange ∧ i.wf = true ∧ ¬s.PbInRange i := by
  constructor
  · intro h
    cases hwf : i.wf with
    | false => simp [exec_refused hwf] at h
    | true =>
      by_cases hin : s.PbInRange i
      · obtain ⟨t, ht⟩ := exec_answers hwf hin
        simp [ht] at h
      · obtain rfl := Host.Outcome.fault.inj ((exec_fault hwf hin).symm.trans h)
        exact ⟨rfl, rfl, hin⟩
  · rintro ⟨rfl, hwf, hout⟩
    exact exec_fault hwf hout

/-- The operations that can be out of range, each with the bytes it addresses. -/
theorem State.not_pbInRange_elim (hout : ¬s.PbInRange i) :
    ((i = .padMark ∨ i = .padZero) ∧ s.pbBytes ≤ s.ptr.toNat) ∨
    (i = .padLen ∧ s.pbBytes < s.ptr.toNat + 8) ∨
    ∃ t, i = .schedLoad t ∧ s.pbBytes < 64 * s.blk.toNat + 4 * t.toNat + 4 := by
  cases i with
  | padMark => exact .inl ⟨.inl rfl, Nat.le_of_not_lt hout⟩
  | padZero => exact .inl ⟨.inr rfl, Nat.le_of_not_lt hout⟩
  | padLen => exact .inr (.inl ⟨rfl, Nat.lt_of_not_le hout⟩)
  | schedLoad t => exact .inr (.inr ⟨t, rfl, Nat.lt_of_not_le hout⟩)
  | _ => exact absurd trivial hout

/-- Settles O52: the four operations fault out of range by `exec_fault`; an operation that faults is
well formed and out of range by `exec_eq_fault_iff`, so it is one of them. -/
theorem outOfRangeAccessFaults : Obligations.OutOfRangeAccessFaults := by
  intro s
  refine ⟨fun hptr => ⟨exec_fault rfl (Nat.not_lt.mpr hptr), exec_fault rfl (Nat.not_lt.mpr hptr)⟩,
    fun hptr => exec_fault rfl (Nat.not_le.mpr hptr),
    fun t ht ha => exec_fault (decide_eq_true ht) (Nat.not_le.mpr ha), fun i f h => ?_⟩
  obtain ⟨hf, hwf, hout⟩ := exec_eq_fault_iff.mp h
  obtain hpad | hlen | ⟨t, rfl, ha⟩ := State.not_pbInRange_elim hout
  · exact ⟨hf, .inl hpad⟩
  · exact ⟨hf, .inr (.inl hlen)⟩
  · exact ⟨hf, .inr (.inr ⟨t, rfl, of_decide_eq_true hwf, ha⟩)⟩

end Sys2Proof.Machine

/-! ## PB and a run against the host (R60, R68, R77; 43_sequencer.md R178) -/

namespace Sys2Proof.Machine

/-- Only the byte written can differ after a write. -/
theorem Memory.eq_of_byteAt_set_ne {m : Memory} {a x : Nat} {b : Byte}
    (h : (m.set a b).byteAt x ≠ m.byteAt x) : x = a :=
  not_imp_comm.mp (m.byteAt_set_ne b) h

/-- Only the bytes written can differ after consecutive writes. -/
theorem Memory.range_of_byteAt_setBytes_ne {m : Memory} {a x : Nat} {bs : List Byte}
    (h : (m.setBytes a bs).byteAt x ≠ m.byteAt x) : a ≤ x ∧ x < a + bs.length := by
  by_contra hx
  exact h (by rw [m.byteAt_setBytes, if_neg hx])

/-- Settles O51: PB stands in the effects of the padding unit and of an idle MSG_WRITE alone, each
of which writes below PB_BYTES. -/
theorem bufferWriters : Obligations.BufferWriters := by
  intro i s t h a hne
  cases exec_effect h with
  | padByte hi b hptr =>
    obtain rfl : a = s.ptr.toNat := Memory.eq_of_byteAt_set_ne hne
    exact ⟨hptr, .inr (.inl ⟨hi, rfl⟩)⟩
  | padLen hptr =>
    obtain ⟨hlo, hhi⟩ := Memory.range_of_byteAt_setBytes_ne hne
    rw [be64_length] at hhi
    exact ⟨by omega, .inr (.inr ⟨rfl, hlo, hhi⟩)⟩
  | host _ hu r _ =>
    cases hu with
    | msgWrite addr d hi hb ha =>
      obtain rfl : a = addr.toNat := Memory.eq_of_byteAt_set_ne hne
      exact ⟨ha, .inl ⟨hb, addr, d, hi, rfl⟩⟩
    | _ => exact absurd rfl hne
  | _ => exact absurd rfl hne

/-- Settles O46: a host operation always answers; of its effects, those on the run, L and PB need a
soft reset or BUSY = 0. -/
theorem hostCannotDisturbRun : Obligations.HostCannotDisturbRun := by
  intro i s hhost hsreset hbusy
  obtain ⟨hwf, hin⟩ := wf_and_pbInRange_of_isHost s hhost
  obtain ⟨t, ht⟩ := exec_answers hwf hin
  refine ⟨t, ht, ?_⟩
  cases exec_effect ht with
  | host _ hu r _ =>
    cases hu with
    | unchanged d => rfl
    | irqenWrite d hi => rfl
    | softReset hi => simp [hi] at hsreset
    | startRefused _ hb _ _ | startAccepted _ hb _ | lenWrite _ _ hb _ | msgWrite _ _ _ hb _ =>
      simp [hb] at hbusy
  | padByte hi _ _ => obtain rfl | rfl := hi <;> cases hhost
  | _ => cases hhost

end Sys2Proof.Machine

/-! ## What a step runs (R73; 43_sequencer.md R170, 44_host_interface.md R190, R195) -/

namespace Sys2Proof.Machine

/-- A step runs what `fetch` gives on the state with the turn taken. -/
theorem step_of_fetch {s : State} {i : Instr} (h : fetch s = .run i) :
    step s = exec i s.takeTurn := by
  simp only [step, h]

/-- Settles O56: with no reserved code in the state, `fetch` gives the operation of each turn's
word. -/
theorem stepRunsDecodedOperation : Obligations.StepRunsDecodedOperation := by
  intro s hadm
  obtain ⟨uop, hdec, hfetch⟩ := fetch_of_admits hadm
  refine ⟨fun i hturn hbusy hi => ?_, fun w i hturn hi => ?_, fun w i hturn hi => ?_⟩
  · obtain rfl : uop = i := Except.ok.inj (hdec.symm.trans hi)
    exact step_of_fetch (by simp [hfetch, hturn, hbusy])
  · obtain rfl : decodeHreq w = i := Except.ok.inj hi
    exact step_of_fetch (by simp [hfetch, hturn])
  · obtain rfl : decodeCtrlw w = i := Except.ok.inj hi
    exact step_of_fetch (by simp [hfetch, hturn])

end Sys2Proof.Machine

/-! ## The decoders and the encoder (30_encoding.md R82, R83, R85, R88, R95)

Decoding undoes encoding on the well-formed operations, and encoding undoes decoding on the words
that decode. For UOP words the two together are `decodeUop_eq_ok_iff`, from which the rows of the
opcode map follow. -/

namespace Sys2Proof.Machine

variable {i : Instr} {w : BitVec 16} {t : BitVec 8}

/-! ### Well-formed operations -/

@[simp] theorem wf_schedLoad_iff : (Instr.schedLoad t).WellFormed ↔ t.toNat < 16 :=
  decide_eq_true_iff

@[simp] theorem wf_schedExp_iff : (Instr.schedExp t).WellFormed ↔ 16 ≤ t.toNat ∧ t.toNat < 64 := by
  simp [Instr.WellFormed, Instr.wf]

@[simp] theorem wf_round_iff : (Instr.round t).WellFormed ↔ t.toNat < 64 :=
  decide_eq_true_iff

/-- Host operations have no index operand. -/
theorem wf_of_isHost (hi : i.isHost = true) : i.WellFormed :=
  (wf_and_pbInRange_of_isHost State.reset hi).1

/-! ### From the operation to its word and back -/

/-- Settles O1: a word without operand is computed; the word of an indexed operation stands in the
row of its phase, and an HREQ or CTRLW word in that of its kind or command bits. -/
theorem decodeInvertsEncode : Obligations.DecodeInvertsEncode := by
  intro i hwf
  cases i with
  | schedLoad t | schedExp t | round t =>
    simp only [wf_schedLoad_iff, wf_schedExp_iff, wf_round_iff] at hwf
    simp [encode, decode, decodeUop_uopWord, hwf, Phase.idle, Phase.initH, Phase.padMark,
      Phase.padZero, Phase.padLen, Phase.schedLoad, Phase.schedExp, Phase.wvInit, Phase.round]
  | regRead _ _ | regWrite _ _ | msgRead _ _ | msgWrite _ _ =>
    exact congrArg Except.ok (decodeHreq_hreqWord _ _ _)
  | ctrlSreset _ _ | ctrlStart _ | ctrlNop _ =>
    exact congrArg Except.ok (decodeCtrlw_ctrlWord _ _ _)
  | _ => rfl

/-! ### From the word to its operation and back -/

/-- The index operand of a decoded micro-operation is legal (R82). -/
theorem wf_of_decodeUop {p q : BitVec 8} (h : decodeUop (uopWord p q) = .ok i) :
    i.WellFormed := by
  rcases decodeUop_uopWord_elim h with ⟨rfl, -⟩ | ⟨rfl, -⟩ | ⟨rfl, -⟩ | ⟨rfl, -⟩ | ⟨rfl, -⟩ |
    ⟨rfl, -, hq⟩ | ⟨rfl, -, hq⟩ | ⟨rfl, -⟩ | ⟨rfl, -, hq⟩ | ⟨rfl, -⟩ | ⟨rfl, -⟩
  exacts [rfl, rfl, rfl, rfl, rfl, wf_schedLoad_iff.mpr hq, wf_schedExp_iff.mpr hq, rfl,
    wf_round_iff.mpr hq, rfl, rfl]

/-- R82 in both directions: a UOP word decodes to the well-formed operation that it encodes. -/
theorem decodeUop_eq_ok_iff : decodeUop w = .ok i ↔ i.WellFormed ∧ encode i = .uop w := by
  constructor
  · intro h
    rw [← uopWord_fields w] at h ⊢
    exact ⟨wf_of_decodeUop h, encode_of_decodeUop h⟩
  · rintro ⟨hwf, he⟩
    exact (congrArg decode he).symm.trans (decodeInvertsEncode i hwf)

/-- An HREQ word is the word of its transaction (R83). -/
theorem encode_decodeHreq (w : BitVec 66) : encode (decodeHreq w) = .hreq w := by
  rw [← hreqWord_fields w, decodeHreq_hreqWord]
  generalize w.extractLsb' 64 2 = kind
  obtain rfl | rfl | rfl | rfl :
      kind = 0b00#2 ∨ kind = 0b01#2 ∨ kind = 0b10#2 ∨ kind = 0b11#2 := by
    revert kind; decide
  all_goals rfl

/-- A CTRLW word is the word of its command (R85). -/
theorem encode_decodeCtrlw (w : BitVec 32) : encode (decodeCtrlw w) = .ctrlw w := by
  rw [← ctrlWord_fields w, decodeCtrlw_ctrlWord]
  generalize w.extractLsb' 1 1 = sreset
  generalize w.extractLsb' 0 1 = start
  obtain rfl | rfl := BitVec.eq_zero_or_eq_one sreset
  · obtain rfl | rfl := BitVec.eq_zero_or_eq_one start <;> rfl
  · rfl

/-- A UOP word is rejected by its own name only (R88). -/
theorem decodeUop_error_elim {e : DecodeError} (h : decodeUop w = .error e) :
    e = .reservedUop w := by
  simp only [decodeUop] at h
  repeat (split at h; · cases h)
  exact (Except.error.inj h).symm

/-- Settles O2: the three totality claims by the outcomes of each decoder, the round trip by
`decodeUop_eq_ok_iff`, `encode_decodeHreq` and `encode_decodeCtrlw`. -/
theorem encodeInvertsDecode : Obligations.EncodeInvertsDecode := by
  refine ⟨fun w => ?_, fun w => ?_, fun w => ?_, fun c i h => ?_⟩
  · cases h : decodeUop w with
    | ok i => exact .inl ⟨i, h⟩
    | error e => exact .inr (h.trans (congrArg _ (decodeUop_error_elim h)))
  · refine ⟨w.extractLsb' 32 32, w.extractLsb' 0 32, ?_⟩
    simp only [decode, decodeHreq]
    split_ifs <;> simp
  · refine ⟨w.extractLsb' 2 30, w.extractLsb' 0 1, ?_⟩
    cases h : commandOf w <;> simp [decode, decodeCtrlw, h]
  · cases c with
    | uop w => exact decodeUop_eq_ok_iff.mp h
    | hreq w =>
      obtain rfl := Except.ok.inj h
      exact ⟨wf_of_isHost (decodeHreq_isHost w), encode_decodeHreq w⟩
    | ctrlw w =>
      obtain rfl := Except.ok.inj h
      exact ⟨wf_of_isHost (decodeCtrlw_isHost w), encode_decodeCtrlw w⟩

/-! ### The rows of the opcode map -/

/-- A row without operand selects its one word. -/
theorem decodeUop_iff_of_noOperand {v : BitVec 16} (hwf : i.WellFormed) (he : encode i = .uop v) :
    decodeUop w = .ok i ↔ w &&& 0xFFFF#16 = v := by
  rw [show 0xFFFF#16 = BitVec.allOnes 16 from rfl, BitVec.and_allOnes, decodeUop_eq_ok_iff, he,
    Code.uop.injEq, eq_comm, and_iff_right hwf]

/-- The mask of a row with operand, as conditions on phase and idx. -/
theorem and_mask_eq_iff {p q x m : BitVec 8} :
    uopWord p q &&& uopWord 0xFF#8 m = uopWord x 0#8 ↔ p = x ∧ q &&& m = 0#8 := by
  simpa [uopSelects] using congrArg (· = true) (uopSelects_masked p q x m)

/-- An idx of n significant bits is the word's low n bits. -/
theorem uopWord_lowBits {p q : BitVec 8} {n : Nat} (hn : n ≤ 8) (hq : q.toNat < 2 ^ n) :
    ((uopWord p q).extractLsb' 0 n).setWidth 8 = q := by
  have hidx := congrArg BitVec.toNat (uopWord_idxField p q)
  rw [BitVec.extractLsb'_toNat, Nat.shiftRight_zero] at hidx
  apply BitVec.eq_of_toNat_eq
  rw [BitVec.toNat_setWidth, BitVec.extractLsb'_toNat, Nat.shiftRight_zero,
    ← Nat.mod_mod_of_dvd _ (Nat.pow_dvd_pow 2 hn), hidx, Nat.mod_eq_of_lt hq,
    Nat.mod_eq_of_lt q.isLt]

/-- The words of phase x with an idx t of n bits, by the row's mask, match and operand; m is the
part of the mask on idx. -/
theorem uopWord_eq_iff_selects {x m : BitVec 8} {n : Nat} (hn : n ≤ 8)
    (hm : ∀ q : BitVec 8, q &&& m = 0#8 ↔ q.toNat < 2 ^ n) :
    (t.toNat < 2 ^ n ∧ uopWord x t = w) ↔
      (w &&& uopWord 0xFF#8 m = uopWord x 0#8 ∧ t = (w.extractLsb' 0 n).setWidth 8) := by
  constructor
  · rintro ⟨ht, rfl⟩
    exact ⟨and_mask_eq_iff.mpr ⟨rfl, (hm t).mpr ht⟩, (uopWord_lowBits hn ht).symm⟩
  · rintro ⟨hw, rfl⟩
    rw [← uopWord_fields w] at hw ⊢
    obtain ⟨rfl, hq⟩ := and_mask_eq_iff.mp hw
    rw [uopWord_lowBits hn ((hm _).mp hq)]
    exact ⟨(hm _).mp hq, rfl⟩

/-- Settles O3: eight rows have one word each; the other three have an idx of four or six bits,
SCHED_EXP's with a least value. -/
theorem opcodeMapSelectsRows : Obligations.OpcodeMapSelectsRows := by
  have mask4 : ∀ q : BitVec 8, q &&& 0xF0#8 = 0#8 ↔ q.toNat < 2 ^ 4 := by decide
  have mask6 : ∀ q : BitVec 8, q &&& 0xC0#8 = 0#8 ↔ q.toNat < 2 ^ 6 := by decide
  intro w
  refine ⟨decodeUop_iff_of_noOperand rfl rfl, decodeUop_iff_of_noOperand rfl rfl,
    decodeUop_iff_of_noOperand rfl rfl, decodeUop_iff_of_noOperand rfl rfl,
    decodeUop_iff_of_noOperand rfl rfl, fun t => ?_, fun t => ?_,
    decodeUop_iff_of_noOperand rfl rfl, fun t => ?_, decodeUop_iff_of_noOperand rfl rfl,
    decodeUop_iff_of_noOperand rfl rfl⟩
  · rw [decodeUop_eq_ok_iff, wf_schedLoad_iff, encode, Code.uop.injEq]
    exact uopWord_eq_iff_selects (by decide) mask4
  · have hrow := uopWord_eq_iff_selects (w := w) (t := t) (x := Phase.schedExp) (by decide) mask6
    rw [decodeUop_eq_ok_iff, wf_schedExp_iff, encode, Code.uop.injEq, and_assoc]
    exact (and_congr_right' hrow).trans and_left_comm
  · rw [decodeUop_eq_ok_iff, wf_round_iff, encode, Code.uop.injEq]
    exact uopWord_eq_iff_selects (by decide) mask6

/-- One row of the decoder passes a rejected word on. -/
theorem ite_ok_eq_error_iff {c : Prop} [Decidable c] {r : Except DecodeError Instr}
    {e : DecodeError} : (if c then .ok i else r) = .error e ↔ ¬c ∧ r = .error e := by
  split_ifs with hc <;> simp [hc]

/-- Settles O4: a word is rejected when no row of the decoder takes it, and the conditions that are
left on phase and idx, as numbers, are R88's list. -/
theorem reservedUopWordsRejected : Obligations.ReservedUopWordsRejected := by
  intro p q
  rw [← uopWord, decodeUop_uopWord]
  simp only [ite_ok_eq_error_iff, and_true, List.mem_cons, List.not_mem_nil, or_false, ne_eq,
    ← BitVec.toNat_inj, BitVec.toNat_ofNat]
  omega

/-! ### Fields and sample words -/

/-- Settles O5: the fields by `decodeHreq_hreqWord`; the reads do not take their data, and MSG_WRITE
takes it through `msgByte`. -/
theorem hostRequestFields : Obligations.HostRequestFields := by
  refine ⟨fun addr data => ⟨decodeHreq_hreqWord _ _ _, decodeHreq_hreqWord _ _ _,
    decodeHreq_hreqWord _ _ _, decodeHreq_hreqWord _ _ _⟩, fun _ _ _ _ => ⟨rfl, rfl⟩,
    fun addr d d' s h => ?_⟩
  have hbyte : msgByte d = msgByte d' := h
  simp only [exec, execMsgWrite, hbyte]

/-- Settles O6, by evaluation. -/
theorem sampleWordsDecode : Obligations.SampleWordsDecode := by
  unfold Obligations.SampleWordsDecode
  decide

end Sys2Proof.Machine

/-! ## Every host operation is answered (30_encoding.md R84, 44_host_interface.md R190) -/

namespace Sys2Proof.Machine

variable {s t : State} {i : Instr}

/-- The fields of the response word (R84). -/
theorem encodeHresp_fields (r : HResp) :
    (encodeHresp r).getLsbD 32 = r.err ∧ (encodeHresp r).extractLsb' 0 32 = r.rdata := by
  refine ⟨?_, BitVec.extractLsb'_append_eq_right⟩
  rw [encodeHresp, BitVec.getLsbD_append]
  simp

/-- A host operation leaves a response, and a BUSERR carries rdata 0. -/
theorem hresp_of_isHost (hi : i.isHost = true) (h : exec i s = .next t) :
    ∃ r, t.hresp = some r ∧ (r.err = true → r.rdata = 0#32) := by
  cases exec_effect h with
  | host _ _ r hr => exact ⟨r, rfl, hr⟩
  | padByte hpad _ _ => obtain rfl | rfl := hpad <;> cases hi
  | _ => cases hi

/-- The response of an operation that returns no data. -/
def State.RespondsZero (t : State) : Prop := ∃ b, t.hresp = some ⟨b, 0#32⟩

/-- Refused while BUSY = 1, answered OK(0) otherwise. -/
theorem respondsZero_unlessBusy {u : State}
    (h : (if s.busy then .next s.respondBusErr else .next (u.respondOk 0#32) : Result) = .next t) :
    t.RespondsZero := by
  split at h <;> obtain rfl := Host.Outcome.next.inj h
  · exact ⟨true, rfl⟩
  · exact ⟨false, rfl⟩

theorem respondsZero_regWrite {addr data : Word} (h : execRegWrite addr data s = .next t) :
    t.RespondsZero := by
  unfold execRegWrite at h
  split at h
  case h_2 =>
    obtain ⟨u, hu, -⟩ := runCommand_next data s
    obtain rfl := Host.Outcome.next.inj (hu.symm.trans h)
    exact ⟨false, rfl⟩
  case h_3 | h_4 => exact respondsZero_unlessBusy h
  all_goals obtain rfl := Host.Outcome.next.inj h; exact ⟨_, rfl⟩

theorem respondsZero_msgWrite {addr data : Word} (h : execMsgWrite addr data s = .next t) :
    t.RespondsZero := by
  unfold execMsgWrite at h
  split at h
  · obtain rfl := Host.Outcome.next.inj h; exact ⟨true, rfl⟩
  · exact respondsZero_unlessBusy h

/-- Writes and commands carry rdata 0 (R84). -/
theorem respondsZero_of_not_read (hi : i.isHost = true) (hreg : ∀ a d, i ≠ .regRead a d)
    (hmsg : ∀ a d, i ≠ .msgRead a d) (h : exec i s = .next t) : t.RespondsZero := by
  cases i with
  | regRead a d => exact absurd rfl (hreg a d)
  | msgRead a d => exact absurd rfl (hmsg a d)
  | regWrite addr data => exact respondsZero_regWrite h
  | msgWrite addr data => exact respondsZero_msgWrite h
  | ctrlSreset _ _ | ctrlStart _ | ctrlNop _ =>
    obtain rfl := Host.Outcome.next.inj h
    exact ⟨false, rfl⟩
  | _ => cases hi

/-- Settles O39: a host operation answers, and `hresp_of_isHost` and `respondsZero_of_not_read` say
with what. -/
theorem everyRequestAnswered : Obligations.EveryRequestAnswered := by
  refine ⟨encodeHresp_fields, fun i s hi => ?_⟩
  obtain ⟨hwf, hin⟩ := wf_and_pbInRange_of_isHost s hi
  obtain ⟨t, ht⟩ := exec_answers hwf hin
  obtain ⟨r, hr, herr⟩ := hresp_of_isHost hi ht
  refine ⟨t, r, ht, hr, herr, fun hreg hmsg => ?_⟩
  obtain ⟨b, hb⟩ := respondsZero_of_not_read hi hreg hmsg ht
  obtain rfl := Option.some.inj (hr.symm.trans hb)
  rfl

end Sys2Proof.Machine

/-! ## Reserved codes are refused, placed words run (R88; 43_sequencer.md R170, R179; 93 U12) -/

namespace Sys2Proof.Machine

variable {s : State} {i : Instr}

theorem toOption_eq_some_iff {d : Except DecodeError Instr} : d.toOption = some i ↔ d = .ok i := by
  cases d <;> simp [Except.toOption]

theorem toOption_eq_none_iff {d : Except DecodeError Instr} :
    d.toOption = none ↔ ∃ e, d = .error e := by
  cases d <;> simp [Except.toOption]

/-- An operation is refused exactly for a reserved index operand. -/
theorem exec_eq_refused_iff {r : Refusal} :
    exec i s = .refused r ↔ r = .reservedUop ∧ i.wf = false := by
  constructor
  · intro h
    cases hwf : i.wf with
    | false =>
      obtain rfl := Host.Outcome.refused.inj ((exec_refused hwf).symm.trans h)
      exact ⟨rfl, rfl⟩
    | true =>
      by_cases hin : s.PbInRange i
      · obtain ⟨t, ht⟩ := exec_answers hwf hin
        simp [ht] at h
      · simp [exec_fault hwf hin] at h
  · rintro ⟨rfl, hwf⟩
    exact exec_refused hwf

/-- Every turn but the hardware reset passes the state's check for reserved codes. -/
theorem fetch_eq_orRefuse (h : s.nextTurn ≠ .powerOn) : ∃ choose, fetch s = s.orRefuse choose := by
  unfold fetch
  cases hn : s.nextTurn with
  | powerOn => exact absurd hn h
  | _ => exact ⟨_, rfl⟩

/-- A step refuses what the check refuses. -/
theorem step_refused {r : Refusal} (h : s.nextTurn ≠ .powerOn)
    (hr : ∀ choose, s.orRefuse choose = .refuse r) : step s = .refused r := by
  obtain ⟨choose, hf⟩ := fetch_eq_orRefuse h
  simp only [step, hf, hr]

/-- Settles O53: the operations by `exec_eq_refused_iff`, the turns by `step_refused`. -/
theorem reservedIsRefused : Obligations.ReservedIsRefused := by
  refine ⟨fun i s => ⟨exec_refused, fun r h => (exec_eq_refused_iff.mp h).2⟩, fun s hturn => ?_⟩
  constructor
  · intro herr
    exact step_refused hturn fun _ => if_pos herr
  · intro herr hdec
    obtain ⟨e, he⟩ := toOption_eq_none_iff.mp hdec
    refine step_refused hturn fun choose => ?_
    rw [State.orRefuse, if_neg (Nat.not_lt.mpr herr), he]

/-! ### Placed words -/

/-- A placed UOP word is the sequencer's. -/
theorem State.placeUop_seq (w : BitVec 16) : (s.placeUop w).seq = w := uopWord_fields w

/-- A placed UOP word that decodes is the operation that the core's turn runs: BUSY is set, or the
word is IDLE's. -/
theorem step_placeUop {w : BitVec 16} (hs : s.Admits) (hd : decodeUop w = .ok i) :
    step (s.placeUop w) = exec i (s.placeUop w).takeTurn := by
  have hseq : decodeUop (s.placeUop w).seq = .ok i := by rw [s.placeUop_seq, hd]
  have hadm : (s.placeUop w).Admits := ⟨hs.1, by rw [State.SeqOk, hseq]; rfl⟩
  by_cases hw : w = 0#16
  · subst hw
    obtain rfl : i = .idle := Except.ok.inj hd.symm
    obtain ⟨uop, hdec, hfetch⟩ := fetch_of_admits hadm
    obtain rfl := Except.ok.inj (hdec.symm.trans hseq)
    exact step_of_fetch (hfetch.trans (congrArg Fetched.run (ite_self _)))
  · have hbusy : (s.placeUop w).busy = true := by simp [State.placeUop, hw]
    obtain ⟨hcore, -, -⟩ := stepRunsDecodedOperation _ hadm
    exact hcore i rfl hbusy hseq

/-- A word of the opcode table that decodes, format by format. -/
theorem decodeTableWord_some_elim {nbits w : Nat} (h : decodeTableWord nbits w = some i) :
    (nbits ≤ 16 ∧ (decodeUop (BitVec.ofNat 16 w)).toOption = some i) ∨
    (¬nbits ≤ 16 ∧ nbits ≤ 32 ∧ decodeCtrlw (BitVec.ofNat 32 w) = i) ∨
    (¬nbits ≤ 16 ∧ ¬nbits ≤ 32 ∧ decodeHreq (BitVec.ofNat 66 w) = i) := by
  unfold decodeTableWord at h
  split_ifs at h with h16 _ h32
  · exact .inl ⟨h16, h⟩
  · exact .inr (.inl ⟨h16, h32, Option.some.inj h⟩)
  · exact .inr (.inr ⟨h16, h32, Option.some.inj h⟩)

/-- Settles O57: a UOP word by `step_placeUop`; a CTRLW or HREQ word becomes the next turn, whose
word is what the step decodes. -/
theorem placedWordRunsNext : Obligations.PlacedWordRunsNext := by
  intro s nbits w i hs hd
  have hadm (u : Turn) : (s.placeTurn u).Admits := hs
  unfold State.withFetchWord State.placeWord
  obtain ⟨h16, hd⟩ | ⟨h16, h32, hd⟩ | ⟨h16, h32, hd⟩ := decodeTableWord_some_elim hd
  · rw [if_pos h16]
    exact step_placeUop hs (toOption_eq_some_iff.mp hd)
  · rw [if_neg h16, if_pos h32]
    obtain ⟨-, -, hcommand⟩ := stepRunsDecodedOperation _ (hadm (.command _))
    exact hcommand _ i rfl (congrArg Except.ok hd)
  · rw [if_neg h16, if_neg h32]
    obtain ⟨-, hrequest, -⟩ := stepRunsDecodedOperation _ (hadm (.request _))
    exact hrequest _ i rfl (congrArg Except.ok hd)

end Sys2Proof.Machine

/-! ## The padding arithmetic and the padded message (40_padding.md R101, R102)

pad(M) is M followed by a tail that depends on its length alone: the marker with its zero fill,
which the padding unit appends byte by byte, and the eight bytes of the bit length. -/

namespace Sys2Proof.Machine

/-- R102's property of Z(L): the marker and Z(L) zeros leave eight bytes of a block free. -/
theorem zeroCount_completes (n : Nat) : (n + 1 + zeroCount n) % 64 = 56 := by
  unfold zeroCount
  omega

/-- Z(L) is the least such count (R102). -/
theorem zeroCount_le {n z : Nat} (h : (n + 1 + z) % 64 = 56) : zeroCount n ≤ z := by
  unfold zeroCount
  omega

/-- The parts of the padded message add up to PBLEN(L) (R102). -/
theorem pbLen_eq_sum (n : Nat) : pbLen n = n + 1 + zeroCount n + 8 := by
  unfold pbLen zeroCount
  omega

/-- PBLEN(L) is the least multiple of 64 with room for nine bytes more than L (R102). -/
theorem pbLen_le {n k : Nat} (hk : k % 64 = 0) (h : n + 9 ≤ k) : pbLen n ≤ k := by
  unfold pbLen
  omega

/-- The marker and k bytes of zero fill. -/
def padFill (k : Nat) : List Byte := 0x80#8 :: List.replicate k 0x00#8

/-- What pad puts after a message of n bytes. -/
def padTail (n : Nat) : List Byte :=
  padFill (zeroCount n) ++ be64 (BitVec.ofNat 64 (8 * n))

@[simp] theorem padFill_length (k : Nat) : (padFill k).length = k + 1 := by simp [padFill]

theorem padFill_succ (k : Nat) : padFill (k + 1) = padFill k ++ [0x00#8] := by
  simp [padFill, List.replicate_succ']

theorem padFill_getElem?_zero {k j : Nat} (h0 : 0 < j) (hj : j < k + 1) :
    (padFill k)[j]? = some 0x00#8 := by
  obtain ⟨i, rfl⟩ := Nat.exists_eq_succ_of_ne_zero h0.ne'
  exact List.getElem?_replicate_of_lt (Nat.lt_of_succ_lt_succ hj)

theorem padTail_length (n : Nat) : n + (padTail n).length = pbLen n := by
  rw [padTail, List.length_append, padFill_length, be64_length, pbLen_eq_sum]
  omega

/-- R101, with the tail named. -/
theorem pad_eq (m : List Byte) : pad m = m ++ padTail m.length := by
  simp [pad, padTail, padFill]

/-- Past the message, pad(M) has the bytes of its tail. -/
theorem pad_getElem?_tail {m : List Byte} {p : Nat} (h : m.length ≤ p) :
    (pad m)[p]? = (padTail m.length)[p - m.length]? := by
  rw [pad_eq, List.getElem?_append_right h]

/-- Up to the length field, the tail is the marker and its zeros. -/
theorem padTail_getElem?_fill {n j : Nat} (h : j < zeroCount n + 1) :
    (padTail n)[j]? = (padFill (zeroCount n))[j]? :=
  List.getElem?_append_left (by rwa [padFill_length])

/-- The tail ends with the eight bytes of the bit length. -/
theorem padTail_getElem?_bitLen {n j : Nat} (hj : j < 8) :
    (padTail n)[zeroCount n + 1 + j]? =
      some ((BitVec.ofNat 64 (8 * n)).extractLsb' (56 - 8 * j) 8) := by
  rw [padTail, List.getElem?_append_right (by simp), padFill_length, Nat.add_sub_cancel_left,
    be64_getElem? _ hj]

/-- Settles O10: the closed forms are arithmetic modulo 64; the bytes of pad(M) lie in the message,
the fill or the length field. -/
theorem paddingClosedForms : Obligations.PaddingClosedForms := by
  refine ⟨fun n => ⟨?_, Nat.mod_lt _ (by decide), zeroCount_completes n, fun _ => zeroCount_le,
    pbLen_eq_sum n, rfl, ?_, Nat.mul_mod_right 64 _, fun _ => pbLen_le,
    Nat.mul_div_cancel_left _ (by decide)⟩, fun m => ?_⟩
  · unfold zeroCount
    omega
  · rw [pbLen_eq_sum]
    omega
  have hlen := pbLen_eq_sum m.length
  refine ⟨?_, fun p hp => ?_, ?_, fun p hlo hhi => ?_, fun j hj => ?_⟩
  · rw [pad_eq, List.length_append, padTail_length]
  · rw [pad_eq, List.getElem?_append_left hp]
  · rw [pad_getElem?_tail le_rfl, Nat.sub_self]
    rfl
  · have hfill : p - m.length < zeroCount m.length + 1 := by omega
    rw [pad_getElem?_tail hlo.le, padTail_getElem?_fill hfill,
      padFill_getElem?_zero (Nat.sub_pos_of_lt hlo) hfill]
  · have hidx : pbLen m.length - 8 + j - m.length = zeroCount m.length + 1 + j := by omega
    rw [pad_getElem?_tail (by omega), hidx, padTail_getElem?_bitLen hj]

end Sys2Proof.Machine

/-! ## The padding unit's micro-operations (40_padding.md R104 to R106) -/

namespace Sys2Proof.Machine

variable {s : State}

/-- PTR mod 64 after n more bytes: 64 divides the modulus 2^64 of PTR. -/
theorem ptr_add_mod_64 (ptr : BitVec 64) (n : Nat) :
    (ptr + BitVec.ofNat 64 n).toNat % 64 = (ptr.toNat + n) % 64 := by
  rw [BitVec.toNat_add, BitVec.toNat_ofNat]
  omega

/-- The blocks below PTR + 8, where PTR does not wrap. -/
theorem ptr_blocks {ptr : BitVec 64} (h : ptr.toNat + 8 < 2 ^ 64) :
    (ptr + 8#64) >>> 6 = BitVec.ofNat 64 ((ptr.toNat + 8) / 64) := by
  apply BitVec.eq_of_toNat_eq
  rw [BitVec.toNat_ushiftRight, BitVec.toNat_add, BitVec.toNat_ofNat, BitVec.toNat_ofNat,
    Nat.shiftRight_eq_div_pow]
  omega

/-- R104 and R105, for the byte that each of them appends. -/
theorem appendPad_appends (b : Byte) (h : s.ptr.toNat < s.pbBytes) :
    ∃ t, appendPad b s = .next t ∧
      t = { s with
        pb := t.pb
        ptr := s.ptr + 1#64
        phase := if (s.ptr.toNat + 1) % 64 = 56 then Phase.padLen else Phase.padZero
        idx := 0#8 } ∧
      t.pb.byteAt s.ptr.toNat = some b ∧
      ∀ a, a ≠ s.ptr.toNat → t.pb.byteAt a = s.pb.byteAt a := by
  refine ⟨_, appendPad_next b h, ?_, s.pb.byteAt_set_self _ b, fun a ha => s.pb.byteAt_set_ne b ha⟩
  rw [← ptr_add_mod_64]

/-- Settles O13: PAD_MARK appends 0x80. -/
theorem padMarkAppendsMarker : Obligations.PadMarkAppendsMarker :=
  ⟨by decide, fun _ h => appendPad_appends 0x80#8 h⟩

/-- Settles O14: PAD_ZERO appends 0x00. -/
theorem padZeroAppendsZero : Obligations.PadZeroAppendsZero :=
  ⟨by decide, fun _ h => appendPad_appends 0x00#8 h⟩

/-- Settles O15: the eight bytes are those of `be64 (bitLen L)`, which `Memory.byteAt_setBytes`
finds at PTR + j and nowhere else. -/
theorem padLenAppendsBitLength : Obligations.PadLenAppendsBitLength := by
  refine ⟨by decide, fun s h => ⟨_, execPadLen_next h, ?_, fun j hj => ?_, fun a ha => ?_⟩⟩
  · obtain ⟨-, hsize⟩ := s.pbBytes_bounds
    rw [ptr_blocks (by omega)]
  · rw [Memory.byteAt_setBytes, be64_length, if_pos (by omega), Nat.add_sub_cancel_left,
      be64_getElem? _ hj, bitLen_eq]
  · rw [Memory.byteAt_setBytes, be64_length, if_neg (by omega)]

end Sys2Proof.Machine

/-! ## The padding unit as a whole (40_padding.md R107)

PAD_MARK and the PAD_ZEROs append the bytes of `padFill` one by one, PAD_LEN the eight of the
length, so that PB holds `padTail` from PTR = L on. -/

namespace Sys2Proof.Machine

variable {s : State} {p q : BitVec 8} {i : Instr}

/-- Where all turns are the core's, a busy block runs the operation of its sequencer state. -/
theorem step_of_coreAt (h : s.CoreAt p q) (hi : decodeUop (uopWord p q) = .ok i) :
    step s = exec i s := by
  obtain ⟨⟨hagenda, hafter⟩, hbusy, hcode, rfl, rfl⟩ := h
  have hadm : s.Admits := ⟨hcode, State.seqOk_of_decodes (by rw [hi]; rfl) rfl rfl⟩
  have hturn : s.nextTurn = .core := by rw [State.nextTurn, hagenda, hafter]
  have htake : s.takeTurn = s := by rw [State.takeTurn, hagenda, List.tail_nil, ← hagenda]
  obtain ⟨hcore, -, -⟩ := stepRunsDecodedOperation s hadm
  rw [hcore i hturn hbusy hi, htake]

/-- Two stretches of consecutive writes, the second where the first ends. -/
theorem Memory.setBytes_append (m : Memory) (a : Nat) (bs cs : List Byte) :
    m.setBytes a (bs ++ cs) = (m.setBytes a bs).setBytes (a + bs.length) cs := by
  induction bs generalizing m a with
  | nil => rfl
  | cons b bs ih =>
    rw [List.cons_append, Memory.setBytes, ih, Memory.setBytes, List.length_cons,
      Nat.add_right_comm, Nat.add_assoc]

/-- The state after single bytes bs were appended at PTR (R104, R105). -/
def State.appended (s : State) (bs : List Byte) : State :=
  { s with
    pb := s.pb.setBytes s.ptr.toNat bs
    ptr := s.ptr + BitVec.ofNat 64 bs.length
    phase := if (s.ptr.toNat + bs.length) % 64 = 56 then Phase.padLen else Phase.padZero
    idx := 0#8 }

theorem appendPad_eq_appended (b : Byte) (h : s.ptr.toNat < s.pbBytes) :
    appendPad b s = .next (s.appended [b]) := by
  rw [appendPad_next b h, ptr_add_mod_64]
  rfl

/-- PTR after the bytes, where it does not wrap. -/
theorem State.appended_ptr_toNat {bs : List Byte} (h : s.ptr.toNat + bs.length < 2 ^ 64) :
    (s.appended bs).ptr.toNat = s.ptr.toNat + bs.length := by
  rw [State.appended, BitVec.toNat_add, BitVec.toNat_ofNat]
  omega

/-- Bytes appended in two goes, where PTR does not wrap in between. -/
theorem State.appended_appended {bs cs : List Byte} (h : s.ptr.toNat + bs.length < 2 ^ 64) :
    (s.appended bs).appended cs = s.appended (bs ++ cs) := by
  have hptr := State.appended_ptr_toNat h
  simp only [State.appended] at hptr ⊢
  simp only [hptr, Memory.setBytes_append, List.length_append, BitVec.add_assoc, BitVec.ofNat_add,
    Nat.add_assoc]

/-- A busy core is at the phase that the new PTR selects. -/
theorem State.CoreAt.appended {bs : List Byte} (h : s.CoreAt p q) :
    (s.appended bs).CoreAt
      (if (s.ptr.toNat + bs.length) % 64 = 56 then Phase.padLen else Phase.padZero) 0#8 := by
  obtain ⟨hcore, hbusy, hcode, -, -⟩ := h
  exact ⟨hcore, hbusy, hcode, rfl, rfl⟩

/-- PAD_MARK and k PAD_ZEROs append the marker and k zeros: before the last zero PTR mod 64 is not
56, since Z(L) is the least count that completes the block. -/
theorem run_padFill (hcore : s.CoreAt Phase.padMark 0#8) (hfit : s.LengthFits)
    (hptr : s.ptr = s.len) {k : Nat} (hk : k ≤ zeroCount s.len.toNat) :
    Sys2Proof.core.run (k + 1) s = .next (s.appended (padFill k)) := by
  obtain ⟨-, hroom⟩ := hfit
  rw [pbLen_eq_sum, ← hptr] at hroom
  rw [← hptr] at hk
  induction k with
  | zero =>
    rw [run_add_one (t := s) rfl, step_of_coreAt hcore (i := .padMark) (by decide)]
    exact appendPad_eq_appended 0x80#8 (by omega)
  | succ k ih =>
    have hmore : ¬(s.ptr.toNat + (padFill k).length) % 64 = 56 := by
      intro h
      rw [padFill_length, Nat.add_comm k, ← Nat.add_assoc] at h
      exact absurd (zeroCount_le h) (by omega)
    have hnowrap : s.ptr.toNat + (padFill k).length < 2 ^ 64 := by
      have hsize := s.pbBytes_bounds
      rw [padFill_length]
      omega
    have hat := hcore.appended (bs := padFill k)
    rw [if_neg hmore] at hat
    rw [run_add_one (ih (by omega)), step_of_coreAt hat (i := .padZero) (by decide), padFill_succ,
      ← State.appended_appended hnowrap]
    apply appendPad_eq_appended
    rw [State.appended_ptr_toNat hnowrap, padFill_length]
    exact hroom.trans_lt' (by omega)

/-- PAD_LEN after the bytes bs, where the padded message ends at index n. -/
theorem exec_padLen_appended {bs : List Byte} {n : Nat} (hn : s.ptr.toNat + bs.length + 8 = n)
    (hin : n ≤ s.pbBytes) :
    exec .padLen (s.appended bs) = .next { s with
      pb := s.pb.setBytes s.ptr.toNat (bs ++ be64 (bitLen s.len))
      ptr := BitVec.ofNat 64 n
      nblk := BitVec.ofNat 64 (n / 64)
      phase := Phase.schedLoad
      idx := 0#8 } := by
  obtain ⟨-, hsize⟩ := s.pbBytes_bounds
  have hptr := State.appended_ptr_toNat (s := s) (bs := bs) (by omega)
  have hend : (s.appended bs).ptr.toNat + 8 = n := by rw [hptr, hn]
  have hptr8 : (s.appended bs).ptr + 8#64 = BitVec.ofNat 64 n := by
    rw [← hend, BitVec.ofNat_add, BitVec.ofNat_toNat, BitVec.setWidth_eq]
  have hblocks := ptr_blocks (ptr := (s.appended bs).ptr) (by omega)
  refine (execPadLen_next (hend.trans_le hin)).trans (congrArg _ ?_)
  rw [hblocks, hend, hptr8, hptr, Memory.setBytes_append]
  rfl

/-- The state that the padding unit leaves (R107). -/
def State.padded (s : State) : State :=
  { s with
    pb := s.pb.setBytes s.len.toNat (padTail s.len.toNat)
    ptr := BitVec.ofNat 64 (pbLen s.len.toNat)
    nblk := BitVec.ofNat 64 (pbLen s.len.toNat / 64)
    phase := Phase.schedLoad
    idx := 0#8 }

/-- R107's run: PAD_MARK and Z(L) PAD_ZEROs fill the block up to the length, PAD_LEN writes it. -/
theorem run_padding (hcore : s.CoreAt Phase.padMark 0#8) (hfit : s.LengthFits)
    (hptr : s.ptr = s.len) :
    Sys2Proof.core.run (2 + zeroCount s.len.toNat) s = .next s.padded := by
  have hsum : s.ptr.toNat + (padFill (zeroCount s.len.toNat)).length + 8 = pbLen s.len.toNat := by
    rw [hptr, padFill_length, pbLen_eq_sum]
    omega
  have hlast : (s.ptr.toNat + (padFill (zeroCount s.len.toNat)).length) % 64 = 56 := by
    rw [hptr, padFill_length, Nat.add_comm _ 1, ← Nat.add_assoc]
    exact zeroCount_completes _
  have hat := hcore.appended (bs := padFill (zeroCount s.len.toNat))
  rw [if_pos hlast] at hat
  have hfill := run_padFill hcore hfit hptr le_rfl
  have hlen := exec_padLen_appended hsum hfit.2
  rw [hptr, bitLen_eq] at hlen
  rw [Nat.add_comm 2]
  exact (run_add_one hfill).trans ((step_of_coreAt hat (by decide)).trans hlen)

/-- Settles O16: `run_padding` gives the state, and PB in it is `padTail` from L to PBLEN(L), which
is pad(M) there, and as before elsewhere. -/
theorem paddingUnitPadsBuffer : Obligations.PaddingUnitPadsBuffer := by
  intro s hcore hfit hptr
  have hend := padTail_length s.len.toNat
  refine ⟨s.padded, run_padding hcore hfit hptr, rfl, fun m hm p hlo hhi => ?_, fun p hp => ?_⟩
  · rw [← hm] at hlo hhi hend
    rw [State.padded, ← hm, Memory.byteAt_setBytes, hend, if_pos ⟨hlo, hhi⟩, pad_getElem?_tail hlo]
  · rw [State.padded, Memory.byteAt_setBytes, hend, if_neg (by omega)]

end Sys2Proof.Machine

/-! ## The sigma functions (41_schedule.md R120, R121; 42_compression.md R140, R141) -/

namespace Sys2Proof.Machine

/-- Bit i of a big sigma, for its three rotations. -/
theorem getLsbD_xor_rotr₃ (x : Word) {a b c i : Nat} (ha : a < 32) (hb : b < 32) (hc : c < 32)
    (hi : i < 32) :
    (rotr x a ^^^ rotr x b ^^^ rotr x c).getLsbD i =
      ((x.getLsbD ((i + a) % 32) ^^ x.getLsbD ((i + b) % 32)) ^^ x.getLsbD ((i + c) % 32)) := by
  rw [BitVec.getLsbD_xor, BitVec.getLsbD_xor, getLsbD_rotr x ha hi, getLsbD_rotr x hb hi,
    getLsbD_rotr x hc hi]

/-- Bit i of a small sigma, for its two rotations and its shift. -/
theorem getLsbD_xor_rotr₂_shift (x : Word) {a b i : Nat} (c : Nat) (ha : a < 32) (hb : b < 32)
    (hi : i < 32) :
    (rotr x a ^^^ rotr x b ^^^ (x >>> c)).getLsbD i =
      ((x.getLsbD ((i + a) % 32) ^^ x.getLsbD ((i + b) % 32)) ^^ x.getLsbD (i + c)) := by
  rw [BitVec.getLsbD_xor, BitVec.getLsbD_xor, getLsbD_rotr x ha hi, getLsbD_rotr x hb hi,
    BitVec.getLsbD_ushiftRight, Nat.add_comm c]

/-- Settles O9: the small sigmas have a shift in third place, the big ones a third rotation. -/
theorem sigmaFunctionsBitwise : Obligations.SigmaFunctionsBitwise :=
  fun x _ hi =>
    ⟨getLsbD_xor_rotr₂_shift x 3 (by decide) (by decide) hi,
      getLsbD_xor_rotr₂_shift x 10 (by decide) (by decide) hi,
      getLsbD_xor_rotr₃ x (by decide) (by decide) (by decide) hi,
      getLsbD_xor_rotr₃ x (by decide) (by decide) (by decide) hi⟩

end Sys2Proof.Machine

/-! ## The expander's micro-operations (41_schedule.md R124, R125) -/

namespace Sys2Proof.Machine

/-- The words of an indexed row: its first word plus the index (R82, R86). -/
theorem uopWord_zero_add (p t : BitVec 8) : uopWord p 0#8 + t.setWidth 16 = uopWord p t := by
  have hword (q : BitVec 8) : (uopWord p q).toNat = p.toNat * 2 ^ 8 + q.toNat := by
    rw [← Nat.shiftLeft_eq, Nat.shiftLeft_add_eq_or_of_lt q.isLt]
    exact BitVec.toNat_append ..
  have hp := p.isLt
  have ht := t.isLt
  apply BitVec.eq_of_toNat_eq
  rw [BitVec.toNat_add, BitVec.toNat_setWidth, hword, hword, BitVec.toNat_ofNat]
  omega

/-- The UOP word of SCHED_LOAD t (R82). -/
theorem decodeUop_schedLoad {t : BitVec 8} (ht : t.toNat < 16) :
    decodeUop (uopWord Phase.schedLoad t) = .ok (.schedLoad t) :=
  decodeInvertsEncode (.schedLoad t) (wf_schedLoad_iff.mpr ht)

/-- The UOP word of SCHED_EXP t (R82). -/
theorem decodeUop_schedExp {t : BitVec 8} (ht : 16 ≤ t.toNat ∧ t.toNat < 64) :
    decodeUop (uopWord Phase.schedExp t) = .ok (.schedExp t) :=
  decodeInvertsEncode (.schedExp t) (wf_schedExp_iff.mpr ht)

/-- The bytes of a word of four, most significant first. -/
theorem extractLsb'_append₄ (b0 b1 b2 b3 : Byte) :
    (b0 ++ b1 ++ b2 ++ b3).extractLsb' 24 8 = b0 ∧ (b0 ++ b1 ++ b2 ++ b3).extractLsb' 16 8 = b1 ∧
    (b0 ++ b1 ++ b2 ++ b3).extractLsb' 8 8 = b2 ∧ (b0 ++ b1 ++ b2 ++ b3).extractLsb' 0 8 = b3 := by
  simp only [BitVec.extractLsb'_append_eq_of_le, BitVec.extractLsb'_append_eq_of_add_le,
    BitVec.extractLsb'_eq_self, Nat.reduceLeDiff, Nat.reduceSub, le_refl, zero_add, and_self]

/-- A written byte stands in its place of the word (R62), also where a byte beside it was never
written. -/
theorem Memory.readWord_byte {m : Memory} {a j : Nat} {b : Byte} (d : Nat) (hj : j < 4)
    (h : m.byteAt (a + j) = some b) : (m.readWord a d).1.extractLsb' (24 - 8 * j) 8 = b := by
  have hread (d : Nat) : (m.read (a + j) d).1 = b := by rw [Memory.read_of_some d h]
  obtain rfl | rfl | rfl | rfl : j = 0 ∨ j = 1 ∨ j = 2 ∨ j = 3 := by omega
  all_goals
    simp only [Memory.readWord, extractLsb'_append₄, Nat.reduceMul, Nat.reduceSub, Nat.mul_zero,
      Nat.sub_zero]
    exact hread _

/-- A word of written bytes draws nothing (R79). -/
theorem Memory.readWord_draws {m : Memory} {a : Nat} (d : Nat)
    (h : ∀ j, j < 4 → m.byteAt (a + j) ≠ none) : (m.readWord a d).2 = d := by
  have hsome (j : Nat) (hj : j < 4) := Option.ne_none_iff_exists'.mp (h j hj)
  obtain ⟨b0, h0⟩ := hsome 0 (by decide)
  obtain ⟨b1, h1⟩ := hsome 1 (by decide)
  obtain ⟨b2, h2⟩ := hsome 2 (by decide)
  obtain ⟨b3, h3⟩ := hsome 3 (by decide)
  exact congrArg Prod.snd (Memory.readWord_of_some d h0 h1 h2 h3)

/-- Settles O17: the answer is `execSchedLoad_next`'s; the bytes of the word loaded are those of
`Memory.readWord`. -/
theorem schedLoadReadsBlockWord : Obligations.SchedLoadReadsBlockWord := by
  refine ⟨fun t ht => ?_, fun s t ht hin => ⟨_, execSchedLoad_next ht hin, rfl, fun j hj hne => ?_,
    fun j hj b hb => ?_, Memory.readWord_draws s.draws⟩⟩
  · exact (congrArg decodeUop (uopWord_zero_add Phase.schedLoad t)).trans (decodeUop_schedLoad ht)
  · exact Vector.getElem_set_ne (by omega) hj hne.symm
  · rw [Vector.getElem_set_self]
    exact Memory.readWord_byte s.draws hj hb

/-- The recurrence of R125 as one sum, reduced modulo 2^32 once. -/
theorem schedSum_eq_ofNat (w2 w7 w15 w16 : Word) :
    schedSum w2 w7 w15 w16 = BitVec.ofNat 32
      ((smallSigma1 w2).toNat + w7.toNat + (smallSigma0 w15).toNat + w16.toNat) := by
  simp only [schedSum, BitVec.ofNat_add, BitVec.ofNat_toNat, BitVec.setWidth_eq]

/-- Settles O18: the answer is `execSchedExp_next`'s, its sum `schedSum_eq_ofNat`'s. -/
theorem schedExpFollowsRecurrence : Obligations.SchedExpFollowsRecurrence := by
  refine ⟨fun t hlo hhi => ?_, fun s t hlo hhi =>
    ⟨_, execSchedExp_next ⟨hlo, hhi⟩, rfl, ?_, fun j hj hne => ?_⟩⟩
  · exact (congrArg decodeUop (uopWord_zero_add Phase.schedExp t)).trans
      (decodeUop_schedExp ⟨hlo, hhi⟩)
  · rw [Vector.getElem_set_self]
    exact schedSum_eq_ofNat _ _ _ _
  · exact Vector.getElem_set_ne hhi hj hne.symm

end Sys2Proof.Machine

/-! ## The expander as a whole (41_schedule.md R126)

After n steps the state is `atWord` n. The 16 SCHED_LOADs set the first words to the block's; from
there on, what is kept is that the words so far extend to sched(block). -/

namespace Sys2Proof.Machine

variable {s : State} {block : List Byte} {p q : BitVec 8} {w : Vector Word 64} {n : Nat}

/-! ### The schedule so far -/

/-- Setting word n appends it to the n words before. -/
theorem take_toList_set (hn : n < 64) (x : Word) :
    (w.set n x).toList.take (n + 1) = w.toList.take n ++ [x] := by
  rw [Vector.toList_set, List.take_add_one, List.getElem?_set_self (by simpa using hn),
    List.take_set_of_le (le_refl n)]
  rfl

/-- A word before word n, in the list of them. -/
theorem getD_take_toList {i : Nat} (hi : i < n) (hn : n < 64) :
    (w.toList.take n).getD i 0#32 = w[i] := by
  rw [List.getD_eq_getElem?_getD, List.getElem?_take_of_lt hi, Vector.getElem?_toList,
    Vector.getElem?_eq_getElem (by omega), Option.getD_some]

/-- One word more of R123's schedule is what SCHED_EXP n computes. -/
theorem schedExtend_take_set (k : Nat) (hlo : 16 ≤ n) (hn : n < 64) :
    schedExtend k ((w.set n (schedSum w[n - 2] w[n - 7] w[n - 15] w[n - 16])).toList.take (n + 1)) =
      schedExtend (k + 1) (w.toList.take n) := by
  have hlen : (w.toList.take n).length = n := by simp; omega
  rw [take_toList_set hn, schedExtend, hlen, getD_take_toList (by omega) hn,
    getD_take_toList (by omega) hn, getD_take_toList (by omega) hn, getD_take_toList (by omega) hn]

/-! ### One step -/

/-- The block of `HoldsBlock`, read from PB: word n stands at 64·blk + 4·n (R122, R124). -/
theorem State.HoldsBlock.readWord (h : s.HoldsBlock block) (hn : n < 16) (d : Nat) :
    s.pb.readWord (s.blockWordAddr n) d = (blockWord block n, d) := by
  obtain ⟨hlen, -, hbytes⟩ := h
  have hbyte (j : Nat) (hj : j < 4) :
      s.pb.byteAt (s.blockWordAddr n + j) = some (block.getD (4 * n + j) 0#8) := by
    rw [State.blockWordAddr, Nat.add_assoc, hbytes _ (by omega), List.getD_eq_getElem?_getD,
      List.getElem?_eq_getElem (by omega), Option.getD_some]
  exact Memory.readWord_of_some d (hbyte 0 (by decide)) (hbyte 1 (by decide)) (hbyte 2 (by decide))
    (hbyte 3 (by decide))

/-- The state whose next micro-operation is the one of word n, with W at w. -/
def State.atWord (s : State) (w : Vector Word 64) (n : Nat) : State :=
  { s with
    w := w
    phase := if n < 16 then Phase.schedLoad else if n < 64 then Phase.schedExp else Phase.wvInit
    idx := if n < 64 then BitVec.ofNat 8 n else 0#8 }

/-- The expander starts at word 0, with whatever W holds. -/
theorem State.CoreAt.atWord_zero (h : s.CoreAt Phase.schedLoad 0#8) : s.atWord s.w 0 = s := by
  obtain ⟨-, -, -, hphase, hidx⟩ := h
  change { s with phase := Phase.schedLoad, idx := 0#8 } = s
  rw [← hphase, ← hidx]

/-- A busy core stays one, at the sequencer state of word n. -/
theorem State.CoreAt.atWord (h : s.CoreAt p q) (w : Vector Word 64) (n : Nat) :
    (s.atWord w n).CoreAt (s.atWord w n).phase (s.atWord w n).idx := by
  obtain ⟨hcore, hbusy, hcode, -, -⟩ := h
  exact ⟨hcore, hbusy, hcode, rfl, rfl⟩

/-- SCHED_LOAD n sets word n to the block's (R124). -/
theorem step_atWord_load (hcore : s.CoreAt p q) (hblock : s.HoldsBlock block) (hn : n < 16) :
    step (s.atWord w n) = .next (s.atWord (w.set n (blockWord block n)) (n + 1)) := by
  obtain ⟨t, rfl⟩ : ∃ t : BitVec 8, t.toNat = n := ⟨.ofNatLT n (by omega), rfl⟩
  have hat : (s.atWord w t.toNat).CoreAt Phase.schedLoad t := by
    simpa [State.atWord, hn, show t.toNat < 64 by omega] using hcore.atWord w t.toNat
  have hin : (s.atWord w t.toNat).blockWordAddr t.toNat + 4 ≤ s.pbBytes := by
    obtain ⟨-, hroom, -⟩ := hblock
    simp only [State.blockWordAddr, State.atWord]
    omega
  have hread : (s.atWord w t.toNat).pb.readWord ((s.atWord w t.toNat).blockWordAddr t.toNat)
      (s.atWord w t.toNat).draws = (blockWord block t.toNat, s.draws) :=
    hblock.readWord hn s.draws
  rw [step_of_coreAt hat (decodeUop_schedLoad hn)]
  refine (execSchedLoad_next hn hin).trans ?_
  simp only [hread]
  obtain h | h : t.toNat < 15 ∨ t.toNat = 15 := by omega
  · simp [State.atWord, h, show t.toNat + 1 < 64 by omega, BitVec.ofNat_add]
  · simp [State.atWord, h]

/-- SCHED_EXP n sets word n by the recurrence (R125). -/
theorem step_atWord_exp (hcore : s.CoreAt p q) (hlo : 16 ≤ n) (hhi : n < 64) :
    step (s.atWord w n) = .next (s.atWord
      (w.set n (schedSum w[n - 2] w[n - 7] w[n - 15] w[n - 16])) (n + 1)) := by
  obtain ⟨t, rfl⟩ : ∃ t : BitVec 8, t.toNat = n := ⟨.ofNatLT n (by omega), rfl⟩
  have hat : (s.atWord w t.toNat).CoreAt Phase.schedExp t := by
    simpa [State.atWord, hhi, show ¬t.toNat < 16 by omega] using hcore.atWord w t.toNat
  rw [step_of_coreAt hat (decodeUop_schedExp ⟨hlo, hhi⟩)]
  refine (execSchedExp_next ⟨hlo, hhi⟩).trans ?_
  obtain h | h : t.toNat < 63 ∨ t.toNat = 63 := by omega
  · simp [State.atWord, h, show ¬t.toNat + 1 < 16 by omega, BitVec.ofNat_add]
  · simp [State.atWord, h]

/-! ### The run -/

/-- After n SCHED_LOADs, the first n words are the block's (R124). -/
theorem run_schedLoad (hcore : s.CoreAt Phase.schedLoad 0#8) (hblock : s.HoldsBlock block)
    (hn : n ≤ 16) :
    ∃ w, Sys2Proof.core.run n s = .next (s.atWord w n) ∧
      w.toList.take n = (List.range n).map (blockWord block) := by
  induction n with
  | zero => exact ⟨s.w, congrArg _ hcore.atWord_zero.symm, rfl⟩
  | succ n ih =>
    obtain ⟨w, hrun, hw⟩ := ih (by omega)
    refine ⟨_, (run_add_one hrun).trans (step_atWord_load hcore hblock (by omega)), ?_⟩
    rw [take_toList_set (by omega), hw, List.range_succ, List.map_append]
    rfl

/-- After the 16 SCHED_LOADs and n SCHED_EXPs, the words so far extend to sched(block) (R125). -/
theorem run_schedExp (hcore : s.CoreAt Phase.schedLoad 0#8) (hblock : s.HoldsBlock block)
    (hn : n ≤ 48) :
    ∃ w, Sys2Proof.core.run (16 + n) s = .next (s.atWord w (16 + n)) ∧
      schedExtend (48 - n) (w.toList.take (16 + n)) = sched block := by
  induction n with
  | zero =>
    obtain ⟨w, hrun, hw⟩ := run_schedLoad hcore hblock le_rfl
    exact ⟨w, hrun, congrArg (schedExtend 48) hw⟩
  | succ n ih =>
    obtain ⟨w, hrun, hw⟩ := ih (by omega)
    refine ⟨_, (run_add_one hrun).trans (step_atWord_exp hcore (by omega) (by omega)), ?_⟩
    rw [← Nat.add_assoc, schedExtend_take_set _ (by omega), ← hw]
    congr 1
    omega

/-- Settles O19: after 48 SCHED_EXPs the 64 words of W are all of sched(block). -/
theorem expanderFillsSchedule : Obligations.ExpanderFillsSchedule := by
  intro s block hcore hblock
  obtain ⟨w, hrun, hw⟩ := run_schedExp hcore hblock (le_refl 48)
  refine ⟨_, hrun, rfl, ?_⟩
  rw [← hw]
  exact (List.take_of_length_le (by simp)).symm

end Sys2Proof.Machine

/-! ## Ch, Maj and the digest (42_compression.md R142, R143, R151) -/

namespace Sys2Proof.Machine

/-- Ch takes y where x is 1 and z where it is 0. From bit 32 on, the complement of x reads as 0, and
so does z. -/
theorem getLsbD_ch (x y z : Word) (i : Nat) :
    (ch x y z).getLsbD i = if x.getLsbD i then y.getLsbD i else z.getLsbD i := by
  rw [ch, BitVec.getLsbD_xor, BitVec.getLsbD_and, BitVec.getLsbD_and, BitVec.getLsbD_not]
  cases x.getLsbD i with
  | true => simp
  | false =>
    by_cases hi : i < 32
    · simp [hi]
    · simp [BitVec.getLsbD_of_ge z i (by omega)]

/-- The three products of Maj make the majority of three bits. -/
theorem xor_and_eq_majority : ∀ a b c : Bool,
    ((a && b) ^^ (a && c) ^^ (b && c)) = decide (2 ≤ a.toNat + b.toNat + c.toNat) := by decide

/-- Settles O8: Ch by the bit of x, Maj by the eight cases of its three bits. -/
theorem chooseAndMajorityBitwise : Obligations.ChooseAndMajorityBitwise := by
  refine fun x y z i => ⟨getLsbD_ch x y z i, ?_⟩
  rw [maj, BitVec.getLsbD_xor, BitVec.getLsbD_xor, BitVec.getLsbD_and, BitVec.getLsbD_and,
    BitVec.getLsbD_and]
  exact xor_and_eq_majority _ _ _

/-- Eight words of four bytes. -/
theorem digest_length (h : Vector Word 8) : (digest h).length = 32 := by
  simp [digest, be32, List.length_flatMap]

/-- Settles O11: the bytes are `digest_getElem?`'s. -/
theorem digestIsBigEndian : Obligations.DigestIsBigEndian :=
  fun h => ⟨digest_length h, fun _ _ hi hj => digest_getElem? h hi hj⟩

end Sys2Proof.Machine

/-! ## The compression engine's micro-operations (42_compression.md R144 to R148) -/

namespace Sys2Proof.Machine

/-- The UOP word of ROUND t (30_encoding.md R82). -/
theorem decodeUop_round {t : BitVec 8} (ht : t.toNat < 64) :
    decodeUop (uopWord Phase.round t) = .ok (.round t) :=
  decodeInvertsEncode (.round t) (wf_round_iff.mpr ht)

/-- Settles O20: the answer is INIT_H's definition, and the table IV holds the eight values. -/
theorem initHLoadsInitialValues : Obligations.InitHLoadsInitialValues :=
  ⟨by decide, fun _ => rfl⟩

/-- Settles O21: the answer is WV_INIT's definition. -/
theorem wvInitCopiesHashState : Obligations.WvInitCopiesHashState :=
  ⟨by decide, fun _ => rfl⟩

/-- T1 as one sum, reduced modulo 2^32 once (R146, 00_scope.md R10). -/
theorem roundT1_eq_ofNat (v : Vector Word 8) (k w : Word) :
    roundT1 v k w = BitVec.ofNat 32 (v[7].toNat + (bigSigma1 v[4]).toNat +
      (ch v[4] v[5] v[6]).toNat + k.toNat + w.toNat) := by
  simp only [roundT1, BitVec.ofNat_add, BitVec.ofNat_toNat, BitVec.setWidth_eq]

/-- T2 as one sum, reduced modulo 2^32 once (R146). -/
theorem roundT2_eq_ofNat (v : Vector Word 8) :
    roundT2 v = BitVec.ofNat 32 ((bigSigma0 v[0]).toNat + (maj v[0] v[1] v[2]).toNat) := by
  simp only [roundT2, BitVec.ofNat_add, BitVec.ofNat_toNat, BitVec.setWidth_eq]

/-- Settles O22: the answer is `execRound_next`'s; the words of `roundOf` are those of the rule,
with T1 and T2 as plain sums. -/
theorem roundUpdatesWorkingVariables : Obligations.RoundUpdatesWorkingVariables := by
  refine ⟨fun t ht => ?_, rfl, fun s t ht => ⟨_, execRound_next ht, rfl, ?_⟩⟩
  · exact (congrArg decodeUop (uopWord_zero_add Phase.round t)).trans (decodeUop_round ht)
  · rw [← roundT1_eq_ofNat, ← roundT2_eq_ofNat]
    exact ⟨rfl, rfl, rfl, rfl, rfl, rfl, rfl, rfl⟩

/-- The words of a sum of hash states, each on its own (R148). -/
theorem addWords_getElem (h v : Vector Word 8) {i : Nat} (hi : i < 8) :
    (addWords h v)[i] = h[i] + v[i] := by
  interval_cases i <;> rfl

/-- Settles O23: the words of the sum are `addWords_getElem`'s. -/
theorem accumAddsIntoHashState : Obligations.AccumAddsIntoHashState :=
  ⟨by decide, fun s => ⟨_, rfl, rfl, fun _ hi => addWords_getElem s.hs s.wv hi⟩⟩

end Sys2Proof.Machine

/-! ## The compression of a block (42_compression.md R149)

WV_INIT leads to `atRound` 0, each ROUND from `atRound` n to n + 1 with one round of R149 more in
WV, and ACCUM adds WV after the 64 rounds into HS. -/

namespace Sys2Proof.Machine

variable {s : State} {p q : BitVec 8} {v : Vector Word 8} {n : Nat}

/-- k steps that lead to t, and then a run from t. -/
theorem run_add {k : Nat} {s t : State} (h : Sys2Proof.core.run k s = .next t) (m : Nat) :
    Sys2Proof.core.run (k + m) s = Sys2Proof.core.run m t := by
  induction k generalizing s with
  | zero =>
    obtain rfl : s = t := Host.Outcome.next.inj h
    rw [Nat.zero_add]
  | succ k ih =>
    rw [Nat.add_right_comm, run_succ]
    rw [run_succ] at h
    cases hs : step s with
    | next s' => rw [hs] at h; exact ih h
    | fault f => rw [hs] at h; cases h
    | refused r => rw [hs] at h; cases h

/-- The state before ROUND n, or before ACCUM once n is 64, with WV at v. -/
def State.atRound (s : State) (v : Vector Word 8) (n : Nat) : State :=
  { s with
    wv := v
    phase := if n < 64 then Phase.round else Phase.accum
    idx := if n < 64 then BitVec.ofNat 8 n else 0#8 }

/-- A busy core stays one, at the sequencer state of round n. -/
theorem State.CoreAt.atRound (h : s.CoreAt p q) (v : Vector Word 8) (n : Nat) :
    (s.atRound v n).CoreAt (s.atRound v n).phase (s.atRound v n).idx := by
  obtain ⟨hcore, hbusy, hcode, -, -⟩ := h
  exact ⟨hcore, hbusy, hcode, rfl, rfl⟩

/-- ROUND n computes one round with K[n] and W[n] (R147). -/
theorem step_atRound (hcore : s.CoreAt p q) (hn : n < 64) :
    step (s.atRound v n) = .next (s.atRound (roundOf v kRom[n] s.w[n]) (n + 1)) := by
  obtain ⟨t, rfl⟩ : ∃ t : BitVec 8, t.toNat = n := ⟨.ofNatLT n (by omega), rfl⟩
  have hat : (s.atRound v t.toNat).CoreAt Phase.round t := by
    simpa [State.atRound, hn] using hcore.atRound v t.toNat
  rw [step_of_coreAt hat (decodeUop_round hn)]
  refine (execRound_next hn).trans ?_
  obtain h | h : t.toNat < 63 ∨ t.toNat = 63 := by omega
  · simp [State.atRound, h, BitVec.ofNat_add]
  · simp [State.atRound, h]

/-- V_{n+1} of R149 with its words taken from the tables of 64. -/
theorem roundsOf_toList_succ (w : Vector Word 64) (h : Vector Word 8) (hn : n < 64) :
    roundsOf w.toList h (n + 1) = roundOf (roundsOf w.toList h n) kRom[n] w[n] := by
  simp [roundsOf, hn, Vector.getD]

/-- WV_INIT and n ROUNDs over the words in W: WV is V_n of R149. -/
theorem run_rounds (hcore : s.CoreAt Phase.wvInit 0#8) (hn : n ≤ 64) :
    Sys2Proof.core.run (1 + n) s = .next (s.atRound (roundsOf s.w.toList s.hs n) n) := by
  induction n with
  | zero => exact (run_add_one rfl).trans (step_of_coreAt (i := .wvInit) hcore (by decide))
  | succ n ih =>
    rw [roundsOf_toList_succ _ _ (by omega)]
    exact (run_add_one (ih (by omega))).trans (step_atRound hcore (by omega))

/-- WV_INIT, 64 ROUNDs and ACCUM: the words in W are compressed into HS (R149). -/
theorem run_compression (hcore : s.CoreAt Phase.wvInit 0#8) :
    Sys2Proof.core.run 66 s = .next { s with
      hs := addWords s.hs (roundsOf s.w.toList s.hs 64)
      wv := roundsOf s.w.toList s.hs 64
      phase := Phase.blockNext
      idx := 0#8 } := by
  have hdecode : decodeUop (uopWord Phase.accum 0#8) = .ok .accum := by decide
  exact (run_add_one (run_rounds hcore le_rfl)).trans
    (step_of_coreAt (hcore.atRound _ 64) hdecode)

/-- Settles O24: the expander leaves sched(block) in W (`expanderFillsSchedule`), which the other 66
steps compress. -/
theorem blockStepsCompress : Obligations.BlockStepsCompress := by
  intro s block hcore hblock
  obtain ⟨t, hexpand, ht, hw⟩ := expanderFillsSchedule s block hcore hblock
  obtain ⟨hcore, hbusy, hcode, -, -⟩ := hcore
  have hat : t.CoreAt Phase.wvInit 0#8 := by
    rw [ht]
    exact ⟨hcore, hbusy, hcode, rfl, rfl⟩
  refine ⟨_, (run_add hexpand 66).trans (run_compression hat), ?_, ?_⟩
  · rw [ht]
  · rw [hw, ht, compress]

end Sys2Proof.Machine

/-! ## The sequencer's own micro-operations (43_sequencer.md R170, R172, R173) -/

namespace Sys2Proof.Machine

/-- Settles O25: IDLE's answer is its definition, and IDLE is what a core turn runs while
BUSY = 0. -/
theorem idleCoreIsQuiescent : Obligations.IdleCoreIsQuiescent := by
  refine ⟨fun _ => rfl, fun s hadm hbusy hturn => ?_⟩
  obtain ⟨uop, -, hfetch⟩ := fetch_of_admits hadm
  exact step_of_fetch (i := .idle) (by simp [hfetch, hturn, hbusy])

/-- Settles O26: where blk + 1 does not wrap, BLOCK_NEXT compares it with NBLK as a number. -/
theorem blockNextAdvancesOrFinishes : Obligations.BlockNextAdvancesOrFinishes := by
  refine ⟨by decide, fun s hblk => ?_⟩
  have hnext : (s.blk + 1#64).toNat = s.blk.toNat + 1 := by
    rw [BitVec.toNat_add, BitVec.toNat_ofNat]
    omega
  rw [← hnext]
  exact ⟨fun hmore => congrArg _ (if_pos hmore), fun hlast => congrArg _ (if_neg hlast.not_gt)⟩

end Sys2Proof.Machine

/-! ## Runs of the core alone (43_sequencer.md R170)

While all turns are the core's, they stay the core's, the draw counter never falls, and a block that
became idle stays idle. -/

namespace Sys2Proof.Machine

variable {s t u v : State} {i : Instr} {k : Nat}

/-- A state that answers a turn other than the hardware reset holds no reserved code. -/
theorem admits_of_step (hturn : s.nextTurn ≠ .powerOn) (h : step s = .next t) : s.Admits := by
  obtain ⟨-, hrefused⟩ := reservedIsRefused
  obtain ⟨hcode, hseq⟩ := hrefused s hturn
  have hle : s.errcode.toNat ≤ 2 := by
    by_contra hlt
    simp [hcode (Nat.lt_of_not_le hlt)] at h
  refine ⟨hle, Option.isSome_iff_ne_none.mpr fun hnone => ?_⟩
  simp [hseq hle hnone] at h

/-- A UOP word decodes to an operation of the core (30_encoding.md R80). -/
theorem isHost_of_decodeUop {w : BitVec 16} (h : decodeUop w = .ok i) : i.isHost = false := by
  obtain ⟨-, he⟩ := decodeUop_eq_ok_iff.mp h
  by_contra hi
  exact encode_ne_uop (by simpa using hi) w he

theorem State.CoreOnly.nextTurn (h : s.CoreOnly) : s.nextTurn = .core := by
  obtain ⟨hagenda, hafter⟩ := h
  rw [State.nextTurn, hagenda, hafter]

theorem State.CoreOnly.takeTurn (h : s.CoreOnly) : s.takeTurn = s := by
  obtain ⟨hagenda, -⟩ := h
  rw [State.takeTurn, hagenda, List.tail_nil, ← hagenda]

/-- A step of a busy core runs the micro-operation of its sequencer state. -/
theorem State.CoreOnly.step_busy (h : s.CoreOnly) (hbusy : s.busy = true)
    (hstep : step s = .next t) : ∃ i, decodeUop s.seq = .ok i ∧ exec i s = .next t := by
  have hadm : s.Admits := admits_of_step (by simp [h.nextTurn]) hstep
  obtain ⟨i, hdec, -⟩ := fetch_of_admits hadm
  obtain ⟨hcore, -, -⟩ := stepRunsDecodedOperation s hadm
  rw [hcore i h.nextTurn hbusy hdec, h.takeTurn] at hstep
  exact ⟨i, hdec, hstep⟩

/-- A step of an idle core changes nothing. -/
theorem State.CoreOnly.step_idle (h : s.CoreOnly) (hbusy : s.busy = false)
    (hstep : step s = .next t) : t = s := by
  obtain ⟨-, hquiet⟩ := idleCoreIsQuiescent
  have hadm : s.Admits := admits_of_step (by simp [h.nextTurn]) hstep
  rw [hquiet s hadm hbusy h.nextTurn, h.takeTurn] at hstep
  exact (Host.Outcome.next.inj hstep).symm

/-- One read moves the draw counter on exactly where the byte was never written (R79). -/
theorem Memory.read_draws_cases (m : Memory) (a d : Nat) :
    (∃ b, m.byteAt a = some b ∧ (m.read a d).2 = d) ∨ (m.read a d).2 = d + 1 := by
  cases h : m.byteAt a with
  | none => exact .inr (by rw [Memory.read_of_none d h])
  | some b => exact .inl ⟨b, rfl, by rw [Memory.read_of_some d h]⟩

theorem Memory.le_read_draws (m : Memory) (a d : Nat) : d ≤ (m.read a d).2 := by
  obtain ⟨-, -, h⟩ | h := m.read_draws_cases a d <;> omega

theorem Memory.le_readWord_draws (m : Memory) (a d : Nat) : d ≤ (m.readWord a d).2 :=
  calc d ≤ _ := m.le_read_draws a d
    _ ≤ _ := m.le_read_draws (a + 1) _
    _ ≤ _ := m.le_read_draws (a + 2) _
    _ ≤ _ := m.le_read_draws (a + 3) _

/-- A micro-operation never moves the draw counter back; only SCHED_LOAD moves it. -/
theorem exec_draws_le (hi : i.isHost = false) (h : exec i s = .next t) : s.draws ≤ t.draws := by
  cases exec_effect h with
  | schedLoad n _ _ => exact Memory.le_readWord_draws _ _ _
  | host hhost => simp [hi] at hhost
  | _ => exact le_rfl

/-- What a step keeps while all turns are the core's. -/
theorem State.CoreOnly.step_keeps (h : s.CoreOnly) (hstep : step s = .next t) :
    t.CoreOnly ∧ s.draws ≤ t.draws ∧ (t.busy = true → s.busy = true) := by
  cases hbusy : s.busy with
  | false =>
    obtain rfl := h.step_idle hbusy hstep
    exact ⟨h, le_rfl, by simp [hbusy]⟩
  | true =>
    obtain ⟨i, hdec, hexec⟩ := h.step_busy hbusy hstep
    obtain ⟨-, -, -, hagenda, hafter⟩ := configurationWriters i s t hexec
    obtain ⟨hnone, hcore⟩ := h
    exact ⟨⟨hagenda.trans hnone, hafter.trans hcore⟩,
      exec_draws_le (isHost_of_decodeUop hdec) hexec, fun _ => rfl⟩

/-- A run of k + m steps passes through the state after k. -/
theorem exists_run_of_run_add {m : Nat} (h : Sys2Proof.core.run (k + m) s = .next t) :
    ∃ u, Sys2Proof.core.run k s = .next u ∧ Sys2Proof.core.run m u = .next t := by
  induction k generalizing s with
  | zero => exact ⟨s, rfl, by rwa [Nat.zero_add] at h⟩
  | succ k ih =>
    rw [Nat.add_right_comm, run_succ] at h
    rw [run_succ]
    cases hs : step s with
    | next s' => rw [hs] at h; exact ih h
    | fault f => rw [hs] at h; cases h
    | refused r => rw [hs] at h; cases h

/-- What a run keeps while all turns are the core's. -/
theorem State.CoreOnly.run_keeps (h : s.CoreOnly) (hrun : Sys2Proof.core.run k s = .next t) :
    t.CoreOnly ∧ s.draws ≤ t.draws ∧ (t.busy = true → s.busy = true) := by
  induction k generalizing t with
  | zero =>
    obtain rfl : s = t := Host.Outcome.next.inj hrun
    exact ⟨h, le_rfl, id⟩
  | succ k ih =>
    obtain ⟨u, hu, -⟩ := exists_run_of_run_add hrun
    obtain ⟨hcore, hdraws, hbusy⟩ := ih hu
    rw [run_add_one hu] at hrun
    obtain ⟨hcore', hdraws', hbusy'⟩ := hcore.step_keeps hrun
    exact ⟨hcore', hdraws.trans hdraws', hbusy ∘ hbusy'⟩

/-- A run of the core alone: busy for k steps, it ends in t with the step after. -/
structure State.RunsTo (s : State) (k : Nat) (t : State) : Prop where
  coreOnly : s.CoreOnly
  busy : ∃ e, Sys2Proof.core.run k s = .next e ∧ e.busy = true
  ends : Sys2Proof.core.run (k + 1) s = .next t

/-- Such a run at every step before its end. -/
theorem State.RunsTo.before_end {c : Nat} (h : s.RunsTo k t) (hc : c ≤ k) :
    ∃ u v, Sys2Proof.core.run c s = .next u ∧ u.CoreOnly ∧ u.busy = true ∧ step u = .next v ∧
      s.draws ≤ u.draws ∧ v.draws ≤ t.draws := by
  obtain ⟨hcore, ⟨e, hlast, hbusy⟩, hend⟩ := h
  obtain ⟨n, rfl⟩ := Nat.exists_eq_add_of_le hc
  obtain ⟨u, hu, hlast⟩ := exists_run_of_run_add hlast
  obtain ⟨hcore, hdraws, -⟩ := hcore.run_keeps hu
  rw [Nat.add_right_comm] at hend
  obtain ⟨v, hv, hend⟩ := exists_run_of_run_add hend
  rw [run_add_one hu] at hv
  obtain ⟨-, -, hback⟩ := hcore.run_keeps hlast
  obtain ⟨hcore', -, -⟩ := hcore.step_keeps hv
  obtain ⟨-, hdraws', -⟩ := hcore'.run_keeps hend
  exact ⟨u, v, hu, hcore, hback hbusy, hv, hdraws, hdraws'⟩

end Sys2Proof.Machine

/-! ## The run of an accepted START (43_sequencer.md R176, 42_compression.md R150)

INIT_H and the padding unit lead to the first block; each block takes the 130 steps of R149 and one
BLOCK_NEXT, the last of which ends the run. A never-written message leaves only the values of the
hash, the working variables, the schedule and the draw counter open, not the course of the run. -/

namespace Sys2Proof.Machine

variable {s t u : State} {m p : List Byte} {q r : BitVec 8} {w : Vector Word 64} {n b : Nat}

/-! ### The padded message in PB -/

/-- The state before the first block: HS at H_0 of R150 and the message padded (R107). -/
def State.readied (s : State) : State := { s with hs := ivRom : State }.padded

@[simp] theorem State.readied_pb (s : State) :
    s.readied.pb = s.pb.setBytes s.len.toNat (padTail s.len.toNat) := rfl

@[simp] theorem State.readied_nblk (s : State) :
    s.readied.nblk = BitVec.ofNat 64 (pbLen s.len.toNat / 64) := rfl

theorem State.CoreAt.readied (h : s.CoreAt r q) : s.readied.CoreAt Phase.schedLoad 0#8 := by
  obtain ⟨hcore, hbusy, hcode, -, -⟩ := h
  exact ⟨hcore, hbusy, hcode, rfl, rfl⟩

/-- INIT_H and the padding unit, from where START leaves the block. -/
theorem run_initH_padding (hcore : s.CoreAt Phase.initH 0#8) (hfit : s.LengthFits)
    (hptr : s.ptr = s.len) :
    Sys2Proof.core.run (1 + (2 + zeroCount s.len.toNat)) s = .next s.readied := by
  have hinit : Sys2Proof.core.run 1 s = .next ({ s with hs := ivRom }.goto Phase.padMark 0#8) :=
    (run_add_one rfl).trans (step_of_coreAt hcore (i := .initH) (by decide))
  have hat : ({ s with hs := ivRom }.goto Phase.padMark 0#8).CoreAt Phase.padMark 0#8 := by
    obtain ⟨hcore, hbusy, hcode, -, -⟩ := hcore
    exact ⟨hcore, hbusy, hcode, rfl, rfl⟩
  exact (run_add hinit _).trans (run_padding hat hfit hptr)

/-- NBLK and the room in PB once the message is padded: PBLEN(L) is whole blocks below 2^64. -/
theorem State.LengthFits.readied_nblk (hfit : s.LengthFits) :
    s.readied.nblk.toNat = pbLen s.len.toNat / 64 ∧
    64 * (pbLen s.len.toNat / 64) = pbLen s.len.toNat ∧ 0 < pbLen s.len.toNat / 64 := by
  obtain ⟨hlen, -⟩ := hfit
  rw [State.readied_nblk, BitVec.toNat_ofNat, pbLen]
  omega

theorem pad_length (m : List Byte) : (pad m).length = pbLen m.length := by
  rw [pad_eq, List.length_append, padTail_length]

/-- PB holds pad(M) once the message M is padded (R107). -/
theorem State.HoldsMessage.readied_byteAt (h : s.HoldsMessage m) (hn : n < pbLen m.length) :
    s.readied.pb.byteAt n = (pad m)[n]? := by
  obtain ⟨hlen, hbytes⟩ := h
  have hend := padTail_length m.length
  rw [State.readied_pb, ← hlen, Memory.byteAt_setBytes, hend]
  by_cases hm : n < m.length
  · rw [if_neg (by omega), hbytes n hm, pad_eq, List.getElem?_append_left hm]
  · rw [if_pos (by omega), pad_getElem?_tail (by omega)]

/-- The padding leaves PB from PBLEN(L) on as it was. -/
theorem State.readied_byteAt_ge (hn : pbLen s.len.toNat ≤ n) :
    s.readied.pb.byteAt n = s.pb.byteAt n := by
  rw [State.readied_pb, Memory.byteAt_setBytes, padTail_length, if_neg (by omega)]

/-! ### The expander over any block -/

/-- SCHED_LOAD n sets word n to what PB reads as, written or not (R124). -/
theorem step_atWord_read (hcore : s.CoreAt Phase.schedLoad q) (hn : n < 16)
    (hroom : 64 * s.blk.toNat + 64 ≤ s.pbBytes) :
    step (s.atWord w n) = .next ({ s with
      draws := (s.pb.readWord (s.blockWordAddr n) s.draws).2 : State }.atWord
        (w.set n (s.pb.readWord (s.blockWordAddr n) s.draws).1) (n + 1)) := by
  obtain ⟨t, rfl⟩ : ∃ t : BitVec 8, t.toNat = n := ⟨.ofNatLT n (by omega), rfl⟩
  have hat : (s.atWord w t.toNat).CoreAt Phase.schedLoad t := by
    simpa [State.atWord, hn, show t.toNat < 64 by omega] using hcore.atWord w t.toNat
  have hin : (s.atWord w t.toNat).blockWordAddr t.toNat + 4 ≤ s.pbBytes := by
    simp only [State.blockWordAddr, State.atWord]
    omega
  rw [step_of_coreAt hat (decodeUop_schedLoad hn)]
  refine (execSchedLoad_next hn hin).trans ?_
  obtain h | h : t.toNat < 15 ∨ t.toNat = 15 := by omega
  · simp [State.atWord, State.blockWordAddr, h, show t.toNat + 1 < 64 by omega, BitVec.ofNat_add]
  · simp [State.atWord, State.blockWordAddr, h]

/-- The first n words that the expander computes, and its draws, do not depend on what WV and W held
(R124, R125, R175). -/
theorem run_expander (hcore : s.CoreAt Phase.schedLoad 0#8)
    (hroom : 64 * s.blk.toNat + 64 ≤ s.pbBytes) (hn : n ≤ 64) :
    ∃ (ws : List Word) (d : Nat), ∀ wv w₀, ∃ w,
      Sys2Proof.core.run n { s with wv := wv, w := w₀ } =
        .next ({ s with wv := wv, draws := d : State }.atWord w n) ∧ w.toList.take n = ws := by
  induction n with
  | zero =>
    refine ⟨[], s.draws, fun wv w₀ => ⟨w₀, congrArg _ ?_, rfl⟩⟩
    have hat : { s with wv := wv, w := w₀ : State }.CoreAt Phase.schedLoad 0#8 := hcore
    exact hat.atWord_zero.symm
  | succ n ih =>
    obtain ⟨ws, d, ih⟩ := ih (by omega)
    have hat (wv) : { s with wv := wv, draws := d : State }.CoreAt Phase.schedLoad 0#8 := hcore
    by_cases hload : n < 16
    · refine ⟨ws ++ [(s.pb.readWord (s.blockWordAddr n) d).1],
        (s.pb.readWord (s.blockWordAddr n) d).2, fun wv w₀ => ?_⟩
      obtain ⟨w, hrun, hw⟩ := ih wv w₀
      refine ⟨_, (run_add_one hrun).trans (step_atWord_read (hat wv) hload hroom), ?_⟩
      rw [take_toList_set (by omega), hw]
      rfl
    · refine ⟨ws ++ [schedSum (ws.getD (n - 2) 0#32) (ws.getD (n - 7) 0#32)
        (ws.getD (n - 15) 0#32) (ws.getD (n - 16) 0#32)], d, fun wv w₀ => ?_⟩
      obtain ⟨w, hrun, hw⟩ := ih wv w₀
      refine ⟨_, (run_add_one hrun).trans (step_atWord_exp (hat wv) (by omega) (by omega)), ?_⟩
      rw [take_toList_set (by omega), ← hw, getD_take_toList (by omega) (by omega),
        getD_take_toList (by omega) (by omega), getD_take_toList (by omega) (by omega),
        getD_take_toList (by omega) (by omega)]

/-- The expander and WV_INIT overwrite all of W and WV: they lead to one state whatever W and WV
held. -/
theorem run_expander_wvInit (hcore : s.CoreAt Phase.schedLoad 0#8)
    (hroom : 64 * s.blk.toNat + 64 ≤ s.pbBytes) :
    ∃ w d, ∀ wv w₀, Sys2Proof.core.run 65 { s with wv := wv, w := w₀ } = .next { s with
      wv := s.hs, w := w, draws := d, phase := Phase.round, idx := 0#8 } := by
  obtain ⟨ws, d, hrun⟩ := run_expander hcore hroom (le_refl 64)
  obtain ⟨w, -, hw⟩ := hrun s.wv s.w
  refine ⟨w, d, fun wv w₀ => ?_⟩
  obtain ⟨w', hrun', hw'⟩ := hrun wv w₀
  obtain rfl : w' = w := by
    rw [← hw, List.take_of_length_le (by simp), List.take_of_length_le (by simp)] at hw'
    exact Vector.toList_inj.mp hw'
  have hat : { s with wv := wv, draws := d : State }.CoreAt Phase.schedLoad 0#8 := hcore
  have hdecode : decodeUop (uopWord Phase.wvInit 0#8) = .ok .wvInit := by decide
  exact (run_add_one hrun').trans (step_of_coreAt (hat.atWord w' 64) hdecode)

/-! ### One block -/

/-- The 130 steps of a block, written or not: what they change, and over a written block with R149's
values and no draw. -/
theorem run_block (hcore : s.CoreAt Phase.schedLoad 0#8)
    (hroom : 64 * s.blk.toNat + 64 ≤ s.pbBytes) :
    ∃ t, Sys2Proof.core.run 130 s = .next t ∧
      t = { s with
        hs := t.hs, wv := t.wv, w := t.w, draws := t.draws, phase := Phase.blockNext, idx := 0#8 } ∧
      ∀ block, s.HoldsBlock block → t.hs = compress s.hs block ∧ t.draws = s.draws := by
  obtain ⟨_, d, hrun⟩ := run_expander hcore hroom (le_refl 64)
  obtain ⟨w, hrun, -⟩ := hrun s.wv s.w
  have hat : { s with draws := d : State }.CoreAt Phase.schedLoad 0#8 := hcore
  have hall := (run_add hrun 66).trans (run_compression (hat.atWord w 64))
  refine ⟨_, hall, rfl, fun block hblock => ?_⟩
  obtain ⟨t, hrun', ht, hhs⟩ := blockStepsCompress s block hcore hblock
  rw [← Host.Outcome.next.inj (hrun'.symm.trans hall)]
  exact ⟨hhs, by rw [ht]⟩

/-! ### All blocks -/

/-- HS is at H_0 of R150 and the blocks that NBLK counts are written, with the bytes p. -/
def State.HoldsBuffer (s : State) (p : List Byte) : Prop :=
  s.hs = ivRom ∧ p.length = 64 * s.nblk.toNat ∧ ∀ n, n < p.length → s.pb.byteAt n = p[n]?

/-- The padding unit leaves pad(M) as such a buffer. -/
theorem State.HoldsMessage.readied_holdsBuffer (h : s.HoldsMessage m) (hfit : s.LengthFits) :
    s.readied.HoldsBuffer (pad m) := by
  obtain ⟨hnblk, hwhole, -⟩ := hfit.readied_nblk
  refine ⟨rfl, ?_, fun i hi => h.readied_byteAt (hi.trans_eq (pad_length m))⟩
  obtain ⟨hlen, -⟩ := h
  rw [pad_length, hlen, hnblk, hwhole]

/-- u is s with b blocks compressed: over a written buffer HS is at H_b of R150, and nothing was
drawn. Where u stands in the sequencer is left open. -/
def State.Compressed (s : State) (b : Nat) (u : State) : Prop :=
  u = { s with
    hs := u.hs, wv := u.wv, w := u.w, draws := u.draws
    phase := u.phase, idx := u.idx, blk := u.blk } ∧
  ∀ p, s.HoldsBuffer p → u.hs = hashState p b ∧ u.draws = s.draws

/-- Block b of a written buffer, where blk has come to b. -/
theorem State.HoldsBuffer.holdsBlock (hp : s.HoldsBuffer p)
    (hroom : 64 * s.nblk.toNat ≤ s.pbBytes) (hu : s.Compressed b u) (hblk : u.blk.toNat = b)
    (hb : b < s.nblk.toNat) : u.HoldsBlock (blockOf p b) := by
  obtain ⟨-, hlen, hbytes⟩ := hp
  obtain ⟨hu, -⟩ := hu
  have hpb : u.pb = s.pb := by rw [hu]
  have hbytesEq : u.pbBytes = s.pbBytes := by rw [hu]; rfl
  refine ⟨by simp [blockOf]; omega, by rw [hblk, hbytesEq]; omega, fun j hj => ?_⟩
  rw [hpb, hblk, hbytes _ (by omega), blockOf, List.getElem?_take_of_lt hj, List.getElem?_drop]

/-- Block b takes the state with b blocks compressed to BLOCK_NEXT with b + 1. -/
theorem State.Compressed.run_block (hu : s.Compressed b u) (hat : u.CoreAt Phase.schedLoad 0#8)
    (hblk : u.blk.toNat = b) (hroom : 64 * s.nblk.toNat ≤ s.pbBytes) (hb : b < s.nblk.toNat) :
    ∃ e, Sys2Proof.core.run 130 u = .next e ∧ s.Compressed (b + 1) e ∧
      e.CoreAt Phase.blockNext 0#8 ∧ e.blk.toNat = b := by
  obtain ⟨hframe, hhash⟩ := id hu
  have hbytes : u.pbBytes = s.pbBytes := by rw [hframe]; rfl
  obtain ⟨e, hrun, he, hcompress⟩ := Machine.run_block hat (by omega)
  obtain ⟨hcore, hbusy, hcode, -, -⟩ := hat
  refine ⟨e, hrun, ⟨?_, fun p hp => ?_⟩, ?_, ?_⟩
  · rw [he, hframe]
  · obtain ⟨hhs, hdraws⟩ := hhash p hp
    obtain ⟨hhs', hdraws'⟩ := hcompress _ (hp.holdsBlock hroom hu hblk hb)
    exact ⟨by rw [hhs', hhs, hashState], hdraws'.trans hdraws⟩
  · rw [he]
    exact ⟨hcore, hbusy, hcode, rfl, rfl⟩
  · rw [he]
    exact hblk

/-- The blocks before the last: after 131 steps for each of b blocks, the next one begins. -/
theorem run_blocks (hat : s.CoreAt Phase.schedLoad 0#8) (hblk : s.blk = 0#64)
    (hroom : 64 * s.nblk.toNat ≤ s.pbBytes) (hb : b < s.nblk.toNat) :
    ∃ u, Sys2Proof.core.run (131 * b) s = .next u ∧ s.Compressed b u ∧
      u.CoreAt Phase.schedLoad 0#8 ∧ u.blk.toNat = b := by
  induction b with
  | zero => exact ⟨s, rfl, ⟨rfl, fun p hp => ⟨hp.1, rfl⟩⟩, hat, by rw [hblk]; rfl⟩
  | succ b ih =>
    obtain ⟨u, hrun, hu, hat, hblk⟩ := ih (by omega)
    obtain ⟨e, hrun', ⟨hframe, hhash⟩, hat, hblk⟩ := hu.run_block hat hblk hroom (by omega)
    have hnblk : e.nblk = s.nblk := by rw [hframe]
    have hsmall := s.nblk.isLt
    obtain ⟨hword, hnext⟩ := blockNextAdvancesOrFinishes
    obtain ⟨hmore, -⟩ := hnext e (by omega)
    have hstep := (step_of_coreAt hat hword).trans (hmore (by rw [hnblk]; omega))
    obtain ⟨hcore, hbusy, hcode, -, -⟩ := hat
    refine ⟨_, (run_add hrun 131).trans ((run_add_one hrun').trans hstep), ⟨?_, hhash⟩,
      ⟨hcore, hbusy, hcode, rfl, rfl⟩, ?_⟩
    · rw [hframe]
    · rw [BitVec.toNat_add, BitVec.toNat_ofNat]
      omega

/-! ### The whole run -/

/-- t is where an accepted run from s ends (R173, R176). -/
def State.Finished (s t : State) : Prop :=
  t = { s.readied with
    hs := t.hs, wv := t.wv, w := t.w, draws := t.draws, blk := t.blk
    busy := false, done := true, phase := Phase.idle } ∧
  ∀ m, s.HoldsMessage m → t.hs = hashState (pad m) (pbLen m.length / 64) ∧ t.draws = s.draws

/-- An accepted run takes steps(L) core steps, busy until the last of them. -/
theorem run_accepted (hat : s.CoreAt Phase.initH 0#8) (hfit : s.LengthFits) (hptr : s.ptr = s.len)
    (hblk : s.blk = 0#64) :
    ∃ k t, k + 1 = steps s.len.toNat ∧ s.RunsTo k t ∧ s.Finished t := by
  obtain ⟨hcore, -⟩ := id hat
  have hpad := run_initH_padding hat hfit hptr
  obtain ⟨hnblk, hwhole, hpos⟩ := hfit.readied_nblk
  obtain ⟨n, hn⟩ := Nat.exists_eq_add_one_of_ne_zero hpos.ne'
  have hroom : 64 * s.readied.nblk.toNat ≤ s.pbBytes := by
    rw [hnblk, hwhole]
    exact hfit.2
  obtain ⟨u, hblocks, hu, hat, hblk⟩ := run_blocks hat.readied hblk hroom (b := n) (by omega)
  obtain ⟨e, hblock, ⟨hframe, hhash⟩, hat, hblk⟩ := hu.run_block hat hblk hroom (by omega)
  obtain ⟨-, hbusy, -⟩ := id hat
  have hrun := (run_add hpad _).trans ((run_add hblocks _).trans hblock)
  have hlast : e.nblk.toNat = n + 1 := by rw [hframe, ← hn, ← hnblk]
  obtain ⟨hword, hnext⟩ := blockNextAdvancesOrFinishes
  obtain ⟨-, hend⟩ := hnext e (by have := e.nblk.isLt; omega)
  have hstep := (step_of_coreAt hat hword).trans (hend (by omega))
  refine ⟨_, _, ?_, ⟨hcore, ⟨e, hrun, hbusy⟩, (run_add_one hrun).trans hstep⟩, ?_, fun m hm => ?_⟩
  · rw [steps, hn]
    omega
  · rw [hframe]
    rfl
  · obtain ⟨hlen, -⟩ := id hm
    obtain ⟨hhs, hdraws⟩ := hhash (pad m) (hm.readied_holdsBuffer hfit)
    exact ⟨by rw [hlen, hn]; exact hhs, hdraws⟩

/-- What the host finds when a run over the message m is over (R178, R150). -/
def State.Hashed (s t : State) (m : List Byte) : Prop :=
  t.busy = false ∧ t.done = true ∧ t.err = false ∧ t.errcode = 0#4 ∧ t.len = s.len ∧
  t.nblk.toNat = pbLen m.length / 64 ∧
  t.hs = hashState (pad m) (pbLen m.length / 64) ∧ digest t.hs = hashOf m

theorem State.Finished.hashed (ht : s.Finished t) (hbusy : s.busy = true) (hstatus : s.StatusOk)
    (hfit : s.LengthFits) (hm : s.HoldsMessage m) : s.Hashed t m := by
  obtain ⟨ht, hhash⟩ := ht
  obtain ⟨hhs, -⟩ := hhash m hm
  obtain ⟨hrunning, -, hcode, -⟩ := hstatus
  obtain ⟨-, herr⟩ := hrunning hbusy
  have hcode : s.errcode = 0#4 := by simpa [herr] using hcode
  obtain ⟨hnblk, -, -⟩ := hfit.readied_nblk
  obtain ⟨hlen, -⟩ := hm
  refine ⟨by rw [ht], by rw [ht], ?_, ?_, by rw [ht]; rfl, ?_, hhs, by rw [hhs, hashOf]⟩
  · rw [ht]
    exact herr
  · rw [ht]
    exact hcode
  · rw [ht, hlen]
    exact hnblk

/-- Settles O28: `run_accepted` gives the run and its end, whose PB is that of the padding unit. -/
theorem runComputesHash : Obligations.RunComputesHash := by
  intro s m hat hstatus hfit hptr hblk hm
  obtain ⟨hlen, -⟩ := id hm
  obtain ⟨k, t, hk, hrun, ht⟩ := run_accepted hat hfit hptr hblk
  obtain ⟨-, hbusy, -⟩ := hat
  obtain ⟨hidle, hdone, herr, hcode, -, hnblk, hhs, hdigest⟩ := ht.hashed hbusy hstatus hfit hm
  obtain ⟨ht, -⟩ := ht
  rw [hlen, ← hk, ← hlen]
  refine ⟨fun c hc => ?_, t, hrun.ends, hidle, hdone, herr, hcode, hnblk, hhs, hdigest,
    fun p hp => ?_, fun p hp => ?_⟩
  · obtain ⟨u, -, hu, -, hbusy, -⟩ := hrun.before_end (Nat.le_of_lt_succ hc)
    exact ⟨u, hu, hbusy⟩
  · rw [ht]
    exact hm.readied_byteAt hp
  · rw [ht]
    exact State.readied_byteAt_ge (hlen ▸ hp)

end Sys2Proof.Machine

/-! ## What a run does not depend on: the registers before it (43_sequencer.md R175) -/

namespace Sys2Proof.Machine

variable {s : State}

/-- INIT_H, the padding unit, the first block's expander and WV_INIT lead to one state whatever HS,
WV and W held. -/
theorem run_to_first_round (hat : s.CoreAt Phase.initH 0#8) (hfit : s.LengthFits)
    (hptr : s.ptr = s.len) (hblk : s.blk = 0#64) :
    ∃ v, ∀ hs wv w, Sys2Proof.core.run (1 + (2 + zeroCount s.len.toNat) + 65)
      { s with hs := hs, wv := wv, w := w } = .next v := by
  have hroom : 64 * s.blk.toNat + 64 ≤ s.pbBytes := by
    obtain ⟨hsize, -⟩ := s.pbBytes_bounds
    rw [hblk]
    exact hsize
  obtain ⟨w₁, d, hrun⟩ := run_expander_wvInit hat.readied hroom
  refine ⟨{ s.readied with
    wv := s.readied.hs, w := w₁, draws := d, phase := Phase.round, idx := 0#8 }, fun hs wv w => ?_⟩
  have hold : { s with hs := hs, wv := wv, w := w : State }.CoreAt Phase.initH 0#8 := hat
  exact (run_add (run_initH_padding hold hfit hptr) 65).trans (hrun wv w)

/-- Settles O30: the runs meet in the state of `run_to_first_round`, long before their end. -/
theorem runIgnoresOldRegisters : Obligations.RunIgnoresOldRegisters := by
  intro s hs wv w hat hfit hptr hblk
  obtain ⟨k, t, hk, hrun, -⟩ := run_accepted hat hfit hptr hblk
  obtain ⟨v, hmeet⟩ := run_to_first_round hat hfit hptr hblk
  obtain ⟨n, hn⟩ : ∃ n, steps s.len.toNat = 1 + (2 + zeroCount s.len.toNat) + 65 + n := by
    obtain ⟨-, -, hpos⟩ := hfit.readied_nblk
    apply Nat.exists_eq_add_of_le
    unfold steps
    omega
  have hend := hrun.ends
  rw [hk] at hend
  refine ⟨t, hend, ?_⟩
  rw [← hend, hn, run_add (hmeet hs wv w) n]
  exact (run_add (hmeet s.hs s.wv s.w) n).symm

end Sys2Proof.Machine

/-! ## What a run does not depend on: the host beside it (43_sequencer.md R178, R73, R77)

The host's fields are the ones a host operation can change while BUSY = 1. A run of the core alone
that draws no free value takes the same course in any setting of them, and a host turn changes
nothing else; so an execution under a schedule is that run with the host's fields set anyhow. -/

namespace Sys2Proof.Machine

variable {s t u v : State} {i : Instr} {k : Nat}

/-! ### The host's fields -/

/-- u with the host's fields, the turns to come included, as h has them. -/
def State.withHost (u h : State) : State :=
  { u with
    hresp := h.hresp, doneIe := h.doneIe, errIe := h.errIe, draws := h.draws
    agenda := h.agenda, thereafter := h.thereafter }

/-- A read that draws nothing finds a written byte. -/
theorem Memory.exists_byteAt_of_no_draw {m : Memory} {a d : Nat} (h : (m.read a d).2 ≤ d) :
    ∃ b, m.byteAt a = some b := by
  obtain ⟨b, hb, -⟩ | hdraw := m.read_draws_cases a d
  · exact ⟨b, hb⟩
  · omega

/-- A word read without a draw was written, and is read so at any draw counter (R79). -/
theorem Memory.readWord_of_no_draw {m : Memory} {a d : Nat} (h : (m.readWord a d).2 = d)
    (d' : Nat) : m.readWord a d' = ((m.readWord a d).1, d') := by
  have h01 := m.le_read_draws a d
  have h12 := m.le_read_draws (a + 1) (m.read a d).2
  have h23 := m.le_read_draws (a + 2) (m.read (a + 1) (m.read a d).2).2
  have h34 := m.le_read_draws (a + 3) (m.read (a + 2) (m.read (a + 1) (m.read a d).2).2).2
  simp only [Memory.readWord] at h
  obtain ⟨b0, h0⟩ := Memory.exists_byteAt_of_no_draw (m := m) (a := a) (d := d) (by omega)
  obtain ⟨b1, h1⟩ := Memory.exists_byteAt_of_no_draw (h12.antisymm' (by omega)).le
  obtain ⟨b2, h2⟩ := Memory.exists_byteAt_of_no_draw (h23.antisymm' (by omega)).le
  obtain ⟨b3, h3⟩ := Memory.exists_byteAt_of_no_draw (h34.antisymm' (by omega)).le
  rw [Memory.readWord_of_some d h0 h1 h2 h3, Memory.readWord_of_some d' h0 h1 h2 h3]

/-- An operation that answers is well formed and in range. -/
theorem wf_and_pbInRange_of_next (h : exec i s = .next t) : i.wf = true ∧ s.PbInRange i := by
  have hwf : i.wf = true := by
    by_contra hwf
    simp [exec_refused (by simpa using hwf)] at h
  refine ⟨hwf, ?_⟩
  by_contra hout
  simp [exec_fault hwf hout] at h

/-- A micro-operation that draws nothing reads none of the host's fields and writes none. -/
theorem exec_withHost (hi : i.isHost = false) (hdraws : t.draws = s.draws)
    (h : exec i s = .next t) (host : State) :
    exec i (s.withHost host) = .next (t.withHost host) := by
  obtain ⟨hwf, hin⟩ := wf_and_pbInRange_of_next h
  cases i with
  | padMark | padZero =>
    rw [Host.Outcome.next.inj (h.symm.trans (appendPad_next _ hin))]
    exact appendPad_next (s := s.withHost host) _ hin
  | padLen =>
    rw [Host.Outcome.next.inj (h.symm.trans (execPadLen_next hin))]
    exact execPadLen_next (s := s.withHost host) hin
  | schedLoad n =>
    have hn : n.toNat < 16 := wf_schedLoad_iff.mp hwf
    rw [Host.Outcome.next.inj (h.symm.trans (execSchedLoad_next hn hin))] at hdraws ⊢
    refine (execSchedLoad_next (s := s.withHost host) hn hin).trans (congrArg _ ?_)
    have hread := Memory.readWord_of_no_draw hdraws host.draws
    have hread' : (s.withHost host).pb.readWord ((s.withHost host).blockWordAddr n.toNat)
      (s.withHost host).draws = _ := hread
    simp only [hread']
    rfl
  | schedExp n =>
    have hn : 16 ≤ n.toNat ∧ n.toNat < 64 := wf_schedExp_iff.mp hwf
    rw [Host.Outcome.next.inj (h.symm.trans (execSchedExp_next hn))]
    exact execSchedExp_next (s := s.withHost host) hn
  | round n =>
    have hn : n.toNat < 64 := wf_round_iff.mp hwf
    rw [Host.Outcome.next.inj (h.symm.trans (execRound_next hn))]
    exact execRound_next (s := s.withHost host) hn
  | blockNext =>
    cases exec_effect h with
    | blockMore hblk => exact congrArg _ (if_pos hblk)
    | runEnd hblk => exact congrArg _ (if_neg hblk)
    | padByte hpad => simp at hpad
    | host hhost => cases hhost
  | idle | initH | wvInit | accum =>
    rw [← Host.Outcome.next.inj h]
    rfl
  | _ => cases hi

/-! ### One turn of an execution -/

/-- A turn placed and taken leaves the state as it was. -/
@[simp] theorem State.placeTurn_takeTurn (s : State) (a : Turn) :
    (s.placeTurn a).takeTurn = s := rfl

/-- The operation of a turn that is neither the core's nor a reset. -/
theorem Turn.harmless_cases {a : Turn} (h : a.harmless = true) :
    a = .core ∨ a ≠ .core ∧ ∃ i, i.isHost = true ∧ i.isSreset = false ∧
      ∀ s : State, s.Admits → step (s.placeTurn a) = exec i s := by
  cases a with
  | core => exact .inl rfl
  | request w =>
    refine .inr ⟨nofun, decodeHreq w, decodeHreq_isHost w, by simpa [Turn.harmless] using h,
      fun s hs => ?_⟩
    obtain ⟨-, hreq, -⟩ := stepRunsDecodedOperation (s.placeTurn (.request w)) hs
    exact hreq w _ rfl rfl
  | command w =>
    refine .inr ⟨nofun, decodeCtrlw w, decodeCtrlw_isHost w, by simpa [Turn.harmless] using h,
      fun s hs => ?_⟩
    obtain ⟨-, -, hcmd⟩ := stepRunsDecodedOperation (s.placeTurn (.command w)) hs
    exact hcmd w _ rfl rfl
  | powerOn => cases h

variable {a : Turn}

/-- A turn in a run: the core's takes the run one step further, a host's leaves it where it is. -/
theorem step_withHost (ha : a.harmless = true) (hcore : u.CoreOnly) (hbusy : u.busy = true)
    (hstep : step u = .next v) (hdraws : v.draws = u.draws) (host : State) :
    ∃ host', step ((u.withHost host).placeTurn a) =
      .next ((if a = .core then v else u).withHost host') := by
  have hadm : u.Admits := admits_of_step (by simp [hcore.nextTurn]) hstep
  obtain rfl | ⟨hne, i, hi, hsreset, hturn⟩ := Turn.harmless_cases ha
  · obtain ⟨i, hdec, hexec⟩ := hcore.step_busy hbusy hstep
    obtain ⟨hrun, -, -⟩ := stepRunsDecodedOperation ((u.withHost host).placeTurn .core) hadm
    refine ⟨host, (hrun i rfl hbusy hdec).trans ?_⟩
    exact exec_withHost (isHost_of_decodeUop hdec) hdraws hexec host
  · obtain ⟨t, ht, hframe⟩ := hostCannotDisturbRun i (u.withHost host) hi hsreset hbusy
    refine ⟨t, (hturn (u.withHost host) hadm).trans (ht.trans (congrArg _ ?_))⟩
    rw [if_neg hne, hframe]
    rfl

/-! ### An execution -/

theorem coreTurns_succ (sched : Schedule) (n : Nat) :
    coreTurns sched (n + 1) = coreTurns sched n + if sched n = .core then 1 else 0 := by
  simp [coreTurns, List.range_succ, List.count_singleton]

theorem coreTurns_mono (sched : Schedule) : Monotone (coreTurns sched) :=
  monotone_nat_of_le_succ fun n => by rw [coreTurns_succ]; exact Nat.le_add_right _ _

variable {sched : Schedule} {n : Nat}

/-- One more turn in the execution, while the run of the core is not over. -/
theorem State.RunsTo.under_succ (h : s.RunsTo k t) (hdraws : t.draws = s.draws)
    (hsched : (sched n).harmless = true) (hn : coreTurns sched n ≤ k) {start host : State}
    (hu : Sys2Proof.core.run (coreTurns sched n) s = .next u)
    (hunder : start.under sched n = .next (u.withHost host)) :
    ∃ v host', Sys2Proof.core.run (coreTurns sched (n + 1)) s = .next v ∧
      start.under sched (n + 1) = .next (v.withHost host') := by
  obtain ⟨u', v, hu', hcore, hbusy, hstep, hlo, hhi⟩ := h.before_end hn
  obtain rfl := Host.Outcome.next.inj (hu.symm.trans hu')
  obtain ⟨-, hle, -⟩ := hcore.step_keeps hstep
  obtain ⟨host', hturn⟩ := step_withHost hsched hcore hbusy hstep (by omega) host
  refine ⟨_, host', ?_, (State.under_add_one hunder).trans hturn⟩
  rw [coreTurns_succ]
  split
  · exact (run_add_one hu).trans hstep
  · exact hu

/-- Up to the end of the core's run, the execution is where that run has come to, whatever the host
did. -/
theorem State.RunsTo.under (h : s.RunsTo k t) (hdraws : t.draws = s.draws)
    (hsched : ∀ n, (sched n).harmless = true) (host : State)
    (hn : ∀ j, j < n → coreTurns sched j ≤ k) :
    ∃ u host', Sys2Proof.core.run (coreTurns sched n) s = .next u ∧
      (s.withHost host).under sched n = .next (u.withHost host') := by
  induction n with
  | zero => exact ⟨s, host, rfl, rfl⟩
  | succ n ih =>
    obtain ⟨u, host', hu, hunder⟩ := ih fun j hj => hn j (by omega)
    exact h.under_succ hdraws (hsched n) (hn n (by omega)) hu hunder

/-- Before the core has had k + 1 turns, the execution is busy. -/
theorem State.RunsTo.busyUnder (h : s.RunsTo k t) (hdraws : t.draws = s.draws)
    (hsched : ∀ n, (sched n).harmless = true) (host : State) (hn : coreTurns sched n ≤ k) :
    (s.withHost host).busyUnder sched n := by
  obtain ⟨u, host', hu, hunder⟩ :=
    h.under hdraws hsched host fun j hj => (coreTurns_mono sched hj.le).trans hn
  obtain ⟨u', -, hu', -, hbusy, -⟩ := h.before_end hn
  obtain rfl := Host.Outcome.next.inj (hu.symm.trans hu')
  exact ⟨_, hunder, hbusy⟩

/-- The core's turn after k others ends the run. -/
theorem State.RunsTo.under_end (h : s.RunsTo k t) (hdraws : t.draws = s.draws)
    (hsched : ∀ n, (sched n).harmless = true) (host : State) (hn : coreTurns sched n = k)
    (hcore : sched n = .core) :
    ∃ host', (s.withHost host).under sched (n + 1) = .next (t.withHost host') := by
  obtain ⟨u, host', hu, hunder⟩ := h.under hdraws hsched host (n := n + 1)
    fun j hj => (coreTurns_mono sched (Nat.le_of_lt_succ hj)).trans hn.le
  rw [coreTurns_succ, hn, if_pos hcore] at hu
  obtain rfl := Host.Outcome.next.inj (hu.symm.trans h.ends)
  exact ⟨host', hunder⟩

/-! ### Agendas -/

/-- The turns of an agenda as a schedule, with the core's ever after. -/
def agendaSchedule (l : List Turn) : Schedule := fun n => l.getD n .core

theorem map_agendaSchedule (l : List Turn) :
    (List.range l.length).map (agendaSchedule l) = l := by
  apply List.ext_getElem (by simp)
  intro n hn _
  have hn : n < l.length := by simpa using hn
  simp [agendaSchedule, hn]

theorem coreTurns_agendaSchedule (l : List Turn) :
    coreTurns (agendaSchedule l) l.length = l.count .core := by
  rw [coreTurns, map_agendaSchedule]

theorem harmless_agendaSchedule {l : List Turn} (hl : ∀ a ∈ l, a.harmless = true) (n : Nat) :
    (agendaSchedule l n).harmless = true := by
  rw [agendaSchedule, List.getD_eq_getElem?_getD]
  cases hn : l[n]? with
  | none => rfl
  | some a => exact hl a (List.mem_of_getElem? hn)

/-- An agenda with the core's last turn at its end, after k others of the core. -/
theorem State.RunsTo.agenda_end (h : s.RunsTo k t) (hdraws : t.draws = s.draws) {turns : List Turn}
    (hturns : ∀ a ∈ turns, a.harmless = true) (hcount : turns.count .core = k) {host : State}
    (hagenda : host.agenda = turns ++ [.core]) :
    ∃ host', Sys2Proof.core.run (turns.length + 1) (s.withHost host) =
      .next { t.withHost host' with agenda := [] } := by
  have hharmless := harmless_agendaSchedule (l := turns ++ [.core])
    (by simpa [or_imp, forall_and, Turn.harmless] using hturns)
  have hlast : agendaSchedule (turns ++ [.core]) turns.length = .core := by simp [agendaSchedule]
  have hmap := map_agendaSchedule (turns ++ [.core])
  have hcore := coreTurns_agendaSchedule (turns ++ [.core])
  rw [List.length_append, List.length_singleton] at hmap hcore
  rw [coreTurns_succ, if_pos hlast, List.count_append, List.count_singleton_self, hcount,
    Nat.add_right_cancel_iff] at hcore
  obtain ⟨host', hend⟩ := h.under_end hdraws hharmless host hcore hlast
  have hrun := State.run_of_under hend []
  rw [hmap, List.append_nil, ← hagenda] at hrun
  exact ⟨host', hrun⟩

/-! ### Fair executions (70_reset_and_hazards.md R252) -/

/-- Infinitely many core turns exceed every count. -/
theorem exists_coreTurns_ge (h : ∀ n, ∃ j, n ≤ j ∧ sched j = .core) (c : Nat) :
    ∃ n, c ≤ coreTurns sched n := by
  induction c with
  | zero => exact ⟨0, Nat.zero_le _⟩
  | succ c ih =>
    obtain ⟨n, hn⟩ := ih
    obtain ⟨j, hj, hcore⟩ := h n
    refine ⟨j + 1, ?_⟩
    rw [coreTurns_succ, if_pos hcore]
    exact Nat.add_le_add_right (hn.trans (coreTurns_mono sched hj)) 1

/-- Where more than k core turns come, one comes after exactly k others. -/
theorem exists_core_turn_after (h : ∃ n, k < coreTurns sched n) :
    ∃ n, coreTurns sched n = k ∧ sched n = .core := by
  obtain ⟨n, hn⟩ := Nat.exists_eq_add_one_of_ne_zero (n := Nat.find h) fun h0 => by
    have := Nat.find_spec h
    rw [h0] at this
    exact absurd this (Nat.not_lt_zero k)
  have hbefore : ¬k < coreTurns sched n := Nat.find_min h (by omega)
  have hafter := Nat.find_spec h
  rw [hn, coreTurns_succ] at hafter
  refine ⟨n, ?_⟩
  split at hafter
  · next hcore => exact ⟨by omega, hcore⟩
  · omega

/-- A core_fair execution comes to the end of the core's run: as long as it did not, it would be
busy and the core have ever more turns. -/
theorem State.RunsTo.fair_end (h : s.RunsTo k t) (hdraws : t.draws = s.draws)
    (hsched : ∀ n, (sched n).harmless = true) (host : State)
    (hfair : CoreFair sched (s.withHost host)) :
    ∃ n host', coreTurns sched n = k ∧ sched n = .core ∧
      (s.withHost host).under sched (n + 1) = .next (t.withHost host') := by
  have hmore : ∃ n, k < coreTurns sched n := by
    by_contra hnone
    have hbusy (n : Nat) : (s.withHost host).busyUnder sched n :=
      h.busyUnder hdraws hsched host (not_lt.mp fun hn => hnone ⟨n, hn⟩)
    exact hnone (exists_coreTurns_ge (hfair ⟨0, fun n _ => hbusy n⟩) (k + 1))
  obtain ⟨n, hn, hcore⟩ := exists_core_turn_after hmore
  obtain ⟨host', hend⟩ := h.under_end hdraws hsched host hn hcore
  exact ⟨n, host', hn, hcore, hend⟩

/-! ### Polling an idle block (30_encoding.md R94) -/

/-- BUSY is bit 0 of STATUS (R41). -/
theorem State.statusWord_busy (s : State) : s.statusWord.getLsbD 0 = s.busy := by
  rw [State.statusWord, BitVec.getLsbD_setWidth, BitVec.getLsbD_append, if_pos (by decide)]
  simp

/-- A STATUS read. -/
theorem step_statusPoll (hadm : s.Admits) :
    step (s.placeTurn statusPoll) = .next (s.respondOk s.statusWord) := by
  obtain ⟨-, hreq, -⟩ := stepRunsDecodedOperation (s.placeTurn statusPoll) hadm
  have hdec : decodeHreq (hreqWord 0b00#2 0x04#32 0#32) = .regRead 0x04#32 0#32 := by
    rw [decodeHreq_hreqWord, if_pos rfl]
  have hreg : regNamed 0x04#32 = some .status := by decide
  exact (hreq _ _ rfl (congrArg Except.ok hdec)).trans (exec_regRead hreg 0#32)

/-- An idle block stays idle under turns that are the core's or polls. -/
theorem under_idle (hsched : ∀ n, sched n = .core ∨ sched n = statusPoll)
    (h : s.under sched n = .next t) (hbusy : t.busy = false) (hadm : t.Admits) (j : Nat) :
    ∃ u, s.under sched (n + j) = .next u ∧ u.busy = false ∧ u.Admits := by
  induction j with
  | zero => exact ⟨t, h, hbusy, hadm⟩
  | succ j ih =>
    obtain ⟨u, hu, hbusy, hadm⟩ := ih
    have hstep := State.under_add_one hu
    obtain ha | ha := hsched (n + j) <;> rw [ha] at hstep
    · obtain ⟨-, hquiet⟩ := idleCoreIsQuiescent
      exact ⟨u, hstep.trans (hquiet (u.placeTurn .core) hadm hbusy rfl), hbusy, hadm⟩
    · exact ⟨_, hstep.trans (step_statusPoll hadm), hbusy, hadm⟩

/-- Where the block is idle, the next poll reads BUSY = 0. -/
theorem exists_idle_poll (hsched : ∀ n, sched n = .core ∨ sched n = statusPoll)
    (hpolls : ∀ n, ∃ j, n ≤ j ∧ sched j = statusPoll) (h : s.under sched n = .next t)
    (hbusy : t.busy = false) (hadm : t.Admits) :
    ∃ j u v, sched j = statusPoll ∧ s.under sched (j + 1) = .next u ∧
      u.hresp = some ⟨false, v⟩ ∧ v.getLsbD 0 = false := by
  obtain ⟨j, hj, hpoll⟩ := hpolls n
  obtain ⟨d, rfl⟩ := Nat.exists_eq_add_of_le hj
  obtain ⟨u, hu, hbusy, hadm⟩ := under_idle hsched h hbusy hadm d
  have hstep := State.under_add_one hu
  rw [hpoll, step_statusPoll hadm] at hstep
  exact ⟨_, _, u.statusWord, hpoll, hstep, rfl, u.statusWord_busy.trans hbusy⟩

/-! ### The run of a message -/

/-- s without the other agents. -/
def State.alone (s : State) : State := { s with agenda := [], thereafter := .core }

/-- s is where START leaves a run over the written message m (44_host_interface.md R196). -/
def State.Begins (s : State) (m : List Byte) : Prop :=
  s.busy = true ∧ s.phase = Phase.initH ∧ s.idx = 0#8 ∧ s.StatusOk ∧ s.LengthFits ∧
  s.ptr = s.len ∧ s.blk = 0#64 ∧ s.HoldsMessage m

/-- The run that the core makes alone from there: it draws nothing and hashes m. -/
theorem State.Begins.alone_runsTo {m : List Byte} (h : s.Begins m) :
    ∃ k t, k + 1 = steps m.length ∧ s.alone.RunsTo k t ∧ t.draws = s.alone.draws ∧
      s.Hashed t m ∧ t.Admits := by
  obtain ⟨hbusy, hphase, hidx, hstatus, hfit, hptr, hblk, hm⟩ := h
  obtain ⟨-, -, -, -, hcode⟩ := id hstatus
  obtain ⟨hlen, -⟩ := id hm
  have hat : s.alone.CoreAt Phase.initH 0#8 := ⟨⟨rfl, rfl⟩, hbusy, hcode, hphase, hidx⟩
  obtain ⟨k, t, hk, hrun, ht⟩ := run_accepted hat hfit hptr hblk
  obtain ⟨hend, hhash⟩ := id ht
  obtain ⟨-, hdraws⟩ := hhash m hm
  refine ⟨k, t, hk.trans (congrArg steps hlen.symm), hrun, hdraws,
    ht.hashed hbusy hstatus hfit hm, ?_, ?_⟩
  · rw [hend]
    exact hcode
  · rw [hend]
    exact State.seqOk_of_idle rfl rfl

/-- Settles O29: the run that the core makes alone ends so; an agenda, and a core_fair execution,
end where it does, in a block that is idle for every poll after. -/
theorem runSurvivesInterleaving : Obligations.RunSurvivesInterleaving := by
  unfold Obligations.RunSurvivesInterleaving
  intro begins ends
  refine ⟨fun s m turns hagenda hturns hcount hbegins => ?_, fun s m sched hbegins hfair => ?_⟩
  all_goals
    obtain ⟨k, t, hk, hrun, hdraws, ht, hadm⟩ := State.Begins.alone_runsTo hbegins
  · rw [← hk, Nat.add_right_cancel_iff] at hcount
    obtain ⟨host, hend⟩ := hrun.agenda_end hdraws hturns hcount hagenda
    exact ⟨_, hend, rfl, ht⟩
  refine ⟨fun hsched => ?_, fun hsched hpolls => ?_⟩
  · obtain ⟨n, host, hn, hcore, hend⟩ := hrun.fair_end hdraws hsched s hfair
    refine ⟨n + 1, _, hend, ht, by rw [coreTurns_succ, hn, if_pos hcore, hk], fun j hj => ?_⟩
    exact hrun.busyUnder hdraws hsched s
      ((coreTurns_mono sched (Nat.le_of_lt_succ hj)).trans hn.le)
  · have hharmless (n : Nat) : (sched n).harmless = true := by
      obtain h | h := hsched n <;> rw [h] <;> decide
    obtain ⟨n, host, -, -, hend⟩ := hrun.fair_end hdraws hharmless s hfair
    obtain ⟨hidle, -⟩ := ht
    exact exists_idle_poll hsched hpolls hend hidle hadm

end Sys2Proof.Machine

/-! ## Registers, PB and commands at the host interface (44_host_interface.md R191 to R198)

One equation for what each transaction and command answers; the claims then compare the model's
words with the fields the spec gives them. -/

namespace Sys2Proof.Machine

variable {s : State} {addr : Word}

/-! ### The words of the registers (R41 to R45) -/

/-- The bits that zero extension adds. -/
theorem extractLsb'_setWidth_above {n m lo k : Nat} (w : BitVec n) (h : n ≤ lo) :
    (w.setWidth m).extractLsb' lo k = 0#k := by
  apply BitVec.eq_of_getLsbD_eq
  intro i hi
  simp [BitVec.getLsbD_of_ge w (lo + i) (by omega)]

/-- The bits of STATUS above BUSY, whose bit is `State.statusWord_busy` (R41). -/
theorem State.statusWord_fields (s : State) :
    s.statusWord.getLsbD 1 = s.done ∧ s.statusWord.getLsbD 2 = s.err ∧
    s.statusWord.getLsbD 3 = false ∧ s.statusWord.extractLsb' 4 4 = s.errcode ∧
    s.statusWord.getLsbD 8 = s.irq ∧ s.statusWord.extractLsb' 9 23 = 0#23 := by
  refine ⟨?done, ?err, ?bit3, ?errcode, ?irq, extractLsb'_setWidth_above _ (by decide)⟩
  case errcode =>
    rw [State.statusWord, BitVec.extractLsb'_setWidth_of_le (by decide)]
    repeat rw [BitVec.extractLsb'_append_eq_of_le (by decide)]
    exact BitVec.extractLsb'_append_eq_right
  all_goals
    simp only [State.statusWord, BitVec.getLsbD_setWidth, BitVec.getLsbD_append]
    simp

/-- The bits of IRQEN (R43). -/
theorem State.irqenWord_fields (s : State) :
    s.irqenWord.getLsbD 0 = s.doneIe ∧ s.irqenWord.getLsbD 1 = s.errIe ∧
    s.irqenWord.extractLsb' 2 30 = 0#30 := by
  refine ⟨?doneIe, ?errIe, extractLsb'_setWidth_above _ (by decide)⟩
  all_goals
    simp only [State.irqenWord, BitVec.getLsbD_setWidth, BitVec.getLsbD_append]
    simp

/-- A 64-bit value of two words, as a number (R42). -/
theorem append_eq_ofNat (hi lo : Word) :
    (hi ++ lo : BitVec 64) = BitVec.ofNat 64 (hi.toNat * 2 ^ 32 + lo.toNat) := by
  apply BitVec.eq_of_toNat_eq
  rw [BitVec.toNat_append, ← Nat.shiftLeft_add_eq_or_of_lt lo.isLt, Nat.shiftLeft_eq,
    BitVec.toNat_ofNat, Nat.mod_eq_of_lt (by omega)]

theorem lowWord_toNat (v : BitVec 64) : (v.extractLsb' 0 32).toNat = v.toNat % 2 ^ 32 := by
  rw [BitVec.extractLsb'_toNat, Nat.shiftRight_zero]

theorem highWord_toNat (v : BitVec 64) : (v.extractLsb' 32 32).toNat = v.toNat / 2 ^ 32 := by
  rw [BitVec.extractLsb'_toNat, Nat.shiftRight_eq_div_pow, Nat.mod_eq_of_lt (by omega)]

/-- The offsets of the read-only registers (R39); those of the others are `regNamed_writable`. -/
theorem regNamed_readOnly :
    regNamed 0x04#32 = some .status ∧ regNamed 0x14#32 = some .seq ∧
    regNamed 0x18#32 = some .nblk := by decide

/-- Settles O31: each offset names its register, and the register's word has the fields above. -/
theorem regReadReturnsRegister : Obligations.RegReadReturnsRegister := by
  intro s data
  obtain ⟨hctrl, hlo, hhi, hirqen⟩ := regNamed_writable
  obtain ⟨hstatus, hseq, hnblk⟩ := regNamed_readOnly
  refine ⟨exec_regRead hctrl data,
    ⟨s.statusWord, exec_regRead hstatus data, s.statusWord_busy, s.statusWord_fields⟩,
    ?lenLo, ?lenHi, ⟨s.irqenWord, exec_regRead hirqen data, s.irqenWord_fields⟩,
    ⟨s.seq.setWidth 32, exec_regRead hseq data, ?idx, ?phase,
      extractLsb'_setWidth_above _ (by decide)⟩,
    exec_regRead hnblk data⟩
  case lenLo =>
    rw [← lowWord_toNat, BitVec.ofNat_toNat, BitVec.setWidth_eq]
    exact exec_regRead hlo data
  case lenHi =>
    rw [← highWord_toNat, BitVec.ofNat_toNat, BitVec.setWidth_eq]
    exact exec_regRead hhi data
  case idx =>
    rw [BitVec.extractLsb'_setWidth_of_le (by decide)]
    exact uopWord_idxField s.phase s.idx
  case phase =>
    rw [BitVec.extractLsb'_setWidth_of_le (by decide)]
    exact uopWord_phaseField s.phase s.idx

/-! ### Writing registers (R192) -/

/-- Settles O34: the offsets name the writable registers, and L is the number of its two words. -/
theorem regWriteWritesRegister : Obligations.RegWriteWritesRegister := by
  intro s data
  obtain ⟨-, hlo, hhi, hirq⟩ := regNamed_writable
  refine ⟨fun hb => ⟨?_, ?_⟩, ?_⟩
  · rw [← highWord_toNat, ← append_eq_ofNat]
    simp only [exec, execRegWrite, hlo, hb]
    rfl
  · rw [← lowWord_toNat, ← append_eq_ofNat]
    simp only [exec, execRegWrite, hhi, hb]
    rfl
  · simp only [exec, execRegWrite, hirq]
    rfl

/-! ### The commands (R195 to R198) -/

/-- A CTRL write by the bits of its data; the commands do not read their operands (R195). -/
theorem exec_ctrlWrite (data : Word) (r : BitVec 30) (b : BitVec 1) (s : State) :
    exec (.regWrite 0x00#32 data) s =
      if data.getLsbD 1 then exec (.ctrlSreset r b) s
      else if data.getLsbD 0 then exec (.ctrlStart r) s
      else exec (.ctrlNop r) s := by
  have hrun : exec (.regWrite 0x00#32 data) s = runCommand data s := by
    obtain ⟨hctrl, -⟩ := regNamed_writable
    simp only [exec, execRegWrite, hctrl]
  rw [hrun, runCommand, commandOf_bits]
  split_ifs <;> rfl

/-- The two bits that select a command are the low ones, whatever stands above them. -/
theorem getLsbD_append_low (r : BitVec 30) (data : Word) {k : Nat} (hk : k < 2) :
    (r ++ data.extractLsb' 0 2).getLsbD k = data.getLsbD k := by
  rw [BitVec.getLsbD_append, if_pos hk]
  simp [hk]

/-- Settles O35: each command by `exec_ctrlWrite`, which reads bits 1 and 0 alone. -/
theorem ctrlWriteExecutesCommand : Obligations.CtrlWriteExecutesCommand := by
  intro s data r r' b
  refine ⟨fun h1 => ?_, fun h1 h0 => ?_, fun h1 h0 => ?_, ?_⟩
  · rw [exec_ctrlWrite data r b, if_pos h1]
  · rw [exec_ctrlWrite data r b, if_neg (ne_true_of_eq_false h1), if_pos h0]
  · rw [exec_ctrlWrite data r b, if_neg (ne_true_of_eq_false h1), if_neg (ne_true_of_eq_false h0)]
  · simp only [exec_ctrlWrite _ r b, getLsbD_append_low _ _ (by decide : 0 < 2),
      getLsbD_append_low _ _ (by decide : 1 < 2)]

/-- An idle START whose length fits passes both checks (60_exceptions.md R223). -/
theorem State.start_of_lengthFits (hb : s.busy = false) (hfit : s.LengthFits) :
    s.start = s.clearForStart.beginRun := by
  obtain ⟨hlen, hcap⟩ := hfit
  rw [State.start, if_neg (by simp [hb]), if_neg (by omega), if_neg (by omega)]

/-- Settles O40 by `State.start_of_lengthFits`. -/
theorem startAcceptedBeginsRun : Obligations.StartAcceptedBeginsRun := by
  intro s r hb hfit
  rw [exec, execCtrlStart, State.start_of_lengthFits hb hfit]
  rfl

/-- Settles O44: bit 1 alone selects the command, which answers the softly reset state. -/
theorem softResetClearsRun : Obligations.SoftResetClearsRun := by
  refine ⟨fun w h1 => ⟨w.extractLsb' 2 30, w.extractLsb' 0 1, ?_⟩, fun _ _ _ => rfl⟩
  rw [decodeCtrlw, commandOf_bits, if_pos h1]

/-- Settles O45: with both bits clear neither other command is selected. -/
theorem ctrlNopHasNoEffect : Obligations.CtrlNopHasNoEffect := by
  refine ⟨fun w h1 h0 => ⟨w.extractLsb' 2 30, ?_⟩, fun _ _ => rfl⟩
  rw [decodeCtrlw, commandOf_bits, if_neg (ne_true_of_eq_false h1),
    if_neg (ne_true_of_eq_false h0)]

/-! ### Reading and writing PB (R193, R194; 60_exceptions.md R225) -/

/-- A MSG_READ that is not refused answers what the read of PB gives (R193, R79). -/
theorem exec_msgRead (ha : addr.toNat < s.pbBytes) (hb : s.busy = false) (data : Word) :
    exec (.msgRead addr data) s =
      .next ({ s with draws := (s.pb.read addr.toNat s.draws).2 }.respondOk
        ((s.pb.read addr.toNat s.draws).1.setWidth 32)) := by
  simp [exec, execMsgRead, State.msgIndex_eq, ha, hb]

/-- A MSG_WRITE that is not refused stores its byte (R194). -/
theorem exec_msgWrite (ha : addr.toNat < s.pbBytes) (hb : s.busy = false) (data : Word) :
    exec (.msgWrite addr data) s =
      .next ({ s with pb := s.pb.set addr.toNat (msgByte data) }.respondOk 0#32) := by
  simp [exec, execMsgWrite, State.msgIndex_eq, ha, hb]

/-- Out of range or busy, both are refused. -/
theorem exec_msg_busErr (h : s.pbBytes ≤ addr.toNat ∨ s.busy = true) (data : Word) :
    exec (.msgRead addr data) s = .next s.respondBusErr ∧
    exec (.msgWrite addr data) s = .next s.respondBusErr := by
  by_cases ha : addr.toNat < s.pbBytes
  · have hb : s.busy = true := h.resolve_left (by omega)
    simp [exec, execMsgRead, execMsgWrite, State.msgIndex_eq, ha, hb]
  · simp [exec, execMsgRead, execMsgWrite, State.msgIndex_eq, ha]

/-- Settles O36: a written byte is read without a draw, a never-written one with one draw. -/
theorem msgReadReturnsByte : Obligations.MsgReadReturnsByte := by
  refine ⟨fun addr data => decodeHreq_hreqWord _ _ _, fun s addr data => ⟨fun h => ?_,
    fun ha hb => ⟨fun b hbyte => ?_, fun hnone => ?_⟩⟩⟩
  · obtain ⟨hread, -⟩ := exec_msg_busErr h data
    exact hread
  · rw [exec_msgRead ha hb, Memory.read_of_some _ hbyte, ← BitVec.ofNat_toNat]
    rfl
  · have hread := exec_msgRead ha hb data
    rw [Memory.read_of_none _ hnone, ← BitVec.ofNat_toNat] at hread
    exact ⟨_, _, hread, rfl⟩

/-- The byte of a MSG_WRITE, as a number (30_encoding.md R87). -/
theorem msgByte_eq_ofNat (data : Word) : msgByte data = BitVec.ofNat 8 (data.toNat % 256) :=
  BitVec.eq_of_toNat_eq (by simp [msgByte, BitVec.extractLsb'_toNat])

/-- Settles O37: PB after the write by the laws of `Memory.set`. -/
theorem msgWriteStoresByte : Obligations.MsgWriteStoresByte := by
  refine ⟨fun addr data => decodeHreq_hreqWord _ _ _, fun s addr data => ⟨fun h => ?_,
    fun ha hb => ⟨_, exec_msgWrite ha hb data, rfl, ?_, fun a hne => ?_⟩⟩⟩
  · obtain ⟨-, hwrite⟩ := exec_msg_busErr h data
    exact hwrite
  · rw [← msgByte_eq_ofNat]
    exact Memory.byteAt_set_self _ _ _
  · exact Memory.byteAt_set_ne _ _ hne

end Sys2Proof.Machine

/-! ## Refused transactions, START errors and the interrupt (60_exceptions.md R220 to R229) -/

namespace Sys2Proof.Machine

variable {s : State} {addr : Word} {r : Reg}

/-! ### BUSERR (R225) -/

/-- Outside the REG space or misaligned, both are refused (R225 causes 1 and 2). -/
theorem exec_reg_busErr (h : addr.toNat / 256 ≠ 0 ∨ addr.toNat % 4 ≠ 0) (data : Word) :
    exec (.regRead addr data) s = .next s.respondBusErr ∧
    exec (.regWrite addr data) s = .next s.respondBusErr := by
  have hr : regNamed addr = none := (regNamed_eq_none_iff addr).mpr h
  simp only [exec, execRegRead, execRegWrite, hr, and_self]

/-- Every other address names a register. -/
theorem regNamed_some_of_legal (h : ¬(addr.toNat / 256 ≠ 0 ∨ addr.toNat % 4 ≠ 0)) :
    ∃ r, regNamed addr = some r :=
  Option.ne_none_iff_exists'.mp (mt (regNamed_eq_none_iff addr).mp h)

/-- A write to LEN_LO or LEN_HI is refused while BUSY = 1 (R225 cause 3). -/
theorem exec_regWrite_len_busErr (haddr : addr = 0x08#32 ∨ addr = 0x0C#32) (hb : s.busy = true)
    (data : Word) : exec (.regWrite addr data) s = .next s.respondBusErr := by
  obtain ⟨-, hlo, hhi, -⟩ := regNamed_writable
  obtain rfl | rfl := haddr
  · simp only [exec, execRegWrite, hlo, if_pos hb]
  · simp only [exec, execRegWrite, hhi, if_pos hb]

/-- Any other write to a register is answered OK(0) (44_host_interface.md R192, R195). -/
theorem exec_regWrite_ok (hr : regNamed addr = some r)
    (hb : addr = 0x08#32 ∨ addr = 0x0C#32 → s.busy = false) (data : Word) :
    ∃ u : State, exec (.regWrite addr data) s = .next (u.respondOk 0#32) := by
  obtain ⟨-, hlo, hhi, -⟩ := regNamed_writable_elim hr
  simp only [exec, execRegWrite, hr]
  cases r with
  | ctrl =>
    obtain ⟨u, hu, -⟩ := runCommand_next data s
    exact ⟨u, hu⟩
  | lenLo => exact ⟨_, if_neg (by simp [hb (.inl (hlo rfl))])⟩
  | lenHi => exact ⟨_, if_neg (by simp [hb (.inr (hhi rfl))])⟩
  | _ => exact ⟨_, rfl⟩

/-- Settles O38: the refusals by `exec_reg_busErr`, `exec_regWrite_len_busErr` and
`exec_msg_busErr`; without a cause the address names a register or a byte of PB, and the
transaction is served. -/
theorem busErrorExactly : Obligations.BusErrorExactly := by
  intro s addr data outside misaligned isLen noByte refused
  have served (h : ¬(noByte ∨ s.busy = true)) : addr.toNat < s.pbBytes ∧ s.busy = false := by
    obtain ⟨hbyte, hb⟩ := not_or.mp h
    exact ⟨Nat.lt_of_not_le hbyte, Bool.eq_false_of_not_eq_true hb⟩
  refine ⟨⟨fun h => (exec_reg_busErr h data).left, fun h => ?regRead⟩,
    ⟨fun h => ?regWriteRefused, fun h => ?regWrite⟩,
    ⟨fun h => (exec_msg_busErr h data).left, fun h => ?msgRead⟩,
    ⟨fun h => (exec_msg_busErr h data).right, fun h => ?msgWrite⟩⟩
  case regRead =>
    obtain ⟨r, hr⟩ := regNamed_some_of_legal h
    exact ⟨_, _, exec_regRead hr data, rfl⟩
  case regWriteRefused =>
    obtain haddr | ⟨hlen, hb⟩ := or_assoc.mpr h
    · exact (exec_reg_busErr haddr data).right
    · exact exec_regWrite_len_busErr hlen hb data
  case regWrite =>
    obtain ⟨haddr, hlen⟩ := not_or.mp (mt or_assoc.mp h)
    obtain ⟨r, hr⟩ := regNamed_some_of_legal haddr
    have hb (ha : isLen) : s.busy = false :=
      Bool.eq_false_of_not_eq_true fun hb => hlen ⟨ha, hb⟩
    obtain ⟨u, hu⟩ := exec_regWrite_ok hr hb data
    exact ⟨_, _, hu, rfl⟩
  case msgRead =>
    obtain ⟨ha, hb⟩ := served h
    exact ⟨_, _, exec_msgRead ha hb data, rfl⟩
  case msgWrite =>
    obtain ⟨ha, hb⟩ := served h
    exact ⟨_, _, exec_msgWrite ha hb data, rfl⟩

/-! ### The errors of START (R220 to R223)

An accepted START is `State.start_of_lengthFits`. -/

/-- The padded message exceeds PB exactly if nine bytes more than L do (R221): PB_BYTES is a
multiple of 64, and PBLEN(L) the least one with room for them. -/
theorem State.pbBytes_lt_pbLen_iff (s : State) (n : Nat) :
    s.pbBytes < pbLen n ↔ s.pbBytes < n + 9 := by
  constructor
  · intro h
    by_contra hfit
    exact absurd (pbLen_le s.pbBytes_mod (Nat.le_of_not_lt hfit)) (Nat.not_le.mpr h)
  · intro h
    unfold pbLen
    omega

/-- The first check of an idle START (R223 case 2). -/
theorem State.start_of_tooLarge (hb : s.busy = false) (hlen : 2 ^ 61 ≤ s.len.toNat) :
    s.start = s.clearForStart.raiseErr 1#4 := by
  rw [State.start, if_neg (by simp [hb]), if_pos hlen]

/-- The second check of an idle START (R223 case 3). -/
theorem State.start_of_overCapacity (hb : s.busy = false) (hlen : s.len.toNat < 2 ^ 61)
    (hcap : s.pbBytes < pbLen s.len.toNat) : s.start = s.clearForStart.raiseErr 2#4 := by
  rw [State.start, if_neg (by simp [hb]), if_neg (Nat.not_le.mpr hlen), if_pos hcap]

/-- The ERRCODE an idle START leaves. -/
theorem exec_ctrlStart_errcode {t : State} {reserved : BitVec 30} (hb : s.busy = false)
    (h : exec (.ctrlStart reserved) s = .next t) :
    t.errcode = if 2 ^ 61 ≤ s.len.toNat then 1#4
      else if s.pbBytes < pbLen s.len.toNat then 2#4 else 0#4 := by
  obtain rfl := Host.Outcome.next.inj h
  rw [State.respondOk_errcode]
  split_ifs with hlen hcap
  · rw [State.start_of_tooLarge hb hlen]
    rfl
  · rw [State.start_of_overCapacity hb (Nat.lt_of_not_le hlen) hcap]
    rfl
  · rw [State.start_of_lengthFits hb ⟨Nat.lt_of_not_le hlen, Nat.le_of_not_lt hcap⟩]
    rfl

/-- Settles O41: the effect is `State.start_of_tooLarge`, and code 1 stands in the first case
alone of `exec_ctrlStart_errcode`. -/
theorem startTooLargeRaisesError : Obligations.StartTooLargeRaisesError := by
  intro s r hb
  refine ⟨fun hlen => ⟨?_, ?_⟩, ?_⟩
  · have hsize := s.pbBytes_bounds
    exact (s.pbBytes_lt_pbLen_iff _).mpr (by omega)
  · rw [exec, execCtrlStart, State.start_of_tooLarge hb hlen]
    rfl
  · rintro ⟨t, ht, hcode⟩
    rw [exec_ctrlStart_errcode hb ht] at hcode
    split_ifs at hcode with hlen
    · exact hlen
    all_goals exact absurd hcode (by decide)

/-- Settles O42: the effect is `State.start_of_overCapacity`, and code 2 stands in the second
case alone of `exec_ctrlStart_errcode`. -/
theorem startOverCapacityRaisesError : Obligations.StartOverCapacityRaisesError := by
  intro s r hb
  refine ⟨s.pbBytes_lt_pbLen_iff _, fun hlen hcap => ?_, ?_⟩
  · rw [exec, execCtrlStart,
      State.start_of_overCapacity hb hlen ((s.pbBytes_lt_pbLen_iff _).mpr hcap)]
    rfl
  · rintro ⟨t, ht, hcode⟩
    rw [exec_ctrlStart_errcode hb ht] at hcode
    split_ifs at hcode with hlen hcap
    · exact absurd hcode (by decide)
    · exact ⟨Nat.lt_of_not_le hlen, (s.pbBytes_lt_pbLen_iff _).mp hcap⟩
    · exact absurd hcode (by decide)

/-! ### The interrupt (R228, R229) -/

/-- The level is high exactly if an enabled source is set (R228). -/
theorem State.irq_iff (s : State) :
    s.irq = true ↔ s.done = true ∧ s.doneIe = true ∨ s.err = true ∧ s.errIe = true := by
  simp [State.irq]

/-- With DONE and ERR clear the level is low. -/
theorem State.irq_of_clear (hd : s.done = false) (he : s.err = false) : s.irq = false := by
  simp [State.irq, hd, he]

/-- Settles O47: bit 8 by `State.statusWord_fields`; the STATUS invariant excludes DONE with ERR,
and a soft reset clears both. -/
theorem interruptLevel : Obligations.InterruptLevel := by
  intro s
  refine ⟨rfl, fun data t v ht hv => ?_, fun hstatus hirq => ?_, fun r b t ht => ?_⟩
  · obtain ⟨hreg, -⟩ := regNamed_readOnly
    obtain rfl := Host.Outcome.next.inj ((exec_regRead hreg data).symm.trans ht)
    obtain rfl := Option.some.inj hv
    obtain ⟨-, -, -, -, hbit, -⟩ := s.statusWord_fields
    exact hbit
  · obtain ⟨-, hexcl, -⟩ := hstatus
    obtain ⟨hd, -⟩ | ⟨he, -⟩ := s.irq_iff.mp hirq
    · exact .inl ⟨hd, Bool.eq_false_of_not_eq_true fun he => hexcl ⟨hd, he⟩⟩
    · exact .inr ⟨Bool.eq_false_of_not_eq_true fun hd => hexcl ⟨hd, he⟩, he⟩
  · obtain rfl := Host.Outcome.next.inj ht
    exact State.irq_of_clear rfl rfl

end Sys2Proof.Machine

/-! ## The block never stops (60_exceptions.md R226; 70_reset_and_hazards.md R252)

The invariant puts every byte that a micro-operation addresses below PB_BYTES, so each step answers
a state, which meets the invariant again. -/

namespace Sys2Proof.Machine

variable {s : State} {i : Instr}

/-- No micro-operation of a run reaches beyond PB (20_memory.md R67). -/
theorem State.Inv.pbInRange (h : s.Inv) (hb : s.busy = true) (hd : decodeUop s.seq = .ok i) :
    s.PbInRange i := by
  have hi : s.MayRun i := .inr (.inr ⟨hb, hd⟩)
  obtain ⟨-, -, -, -, -, hrun⟩ := id h
  obtain ⟨-, hfit, -, -, -, hlen, -⟩ := hrun hb
  cases i with
  | padMark =>
    obtain ⟨-, hp⟩ := hi.busy_phase nofun rfl
    obtain ⟨-, hroom, -⟩ := h.padding_room hb (.inl hp)
    exact show s.ptr.toNat < s.pbBytes by omega
  | padZero =>
    obtain ⟨-, hp⟩ := hi.busy_phase nofun rfl
    obtain ⟨-, hroom, -⟩ := h.padding_room hb (.inr hp)
    exact show s.ptr.toNat < s.pbBytes by omega
  | padLen =>
    obtain ⟨-, hp⟩ := hi.busy_phase nofun rfl
    obtain ⟨hend, -⟩ := hlen hp
    exact hend.trans_le hfit
  | schedLoad n =>
    obtain ⟨-, hp⟩ := hi.busy_phase nofun rfl
    have hn : n.toNat < 16 := wf_schedLoad_iff.mp (wf_of_decodeUop hd)
    have hin : s.phase ∈ blockPhases := hp ▸ by decide
    obtain ⟨hnblk, hblk⟩ := h.block_counters hb hin
    exact show 64 * s.blk.toNat + 4 * n.toNat + 4 ≤ s.pbBytes by omega
  | _ => exact trivial

/-- A host operation answers in every state (44_host_interface.md R190). -/
theorem exec_host_answers (hi : i.isHost = true) (s : State) : ∃ t, exec i s = .next t := by
  obtain ⟨hwf, hin⟩ := wf_and_pbInRange_of_isHost s hi
  exact exec_answers hwf hin

/-- Whichever turn is next, a state that meets the invariant has a next state (R226). -/
theorem State.Inv.step_answers (h : s.Inv) : ∃ t, step s = .next t := by
  obtain ⟨hcore, hrequest, hcommand⟩ := stepRunsDecodedOperation s h.admits
  cases hturn : s.nextTurn with
  | core =>
    cases hb : s.busy with
    | false =>
      obtain ⟨-, hquiet⟩ := idleCoreIsQuiescent
      exact ⟨_, hquiet s h.admits hb hturn⟩
    | true =>
      obtain ⟨i, hd, -⟩ := fetch_of_admits h.admits
      rw [hcore i hturn hb hd]
      exact exec_answers (wf_of_decodeUop hd) (h.takeTurn.pbInRange hb hd)
  | request w =>
    rw [hrequest w _ hturn rfl]
    exact exec_host_answers (decodeHreq_isHost w) _
  | command w =>
    rw [hcommand w _ hturn rfl]
    exact exec_host_answers (decodeCtrlw_isHost w) _
  | powerOn => exact ⟨s.takeTurn.hardReset, by simp only [step, fetch, hturn]⟩

/-- A turn of the host that is no soft reset leaves a busy block busy, with no reserved code. -/
theorem step_host_keeps_busy {a : Turn} (ha : a.harmless = true) (hne : a ≠ .core)
    (hadm : s.Admits) (hb : s.busy = true) :
    ∃ t, step (s.placeTurn a) = .next t ∧ t.Admits ∧ t.busy = true := by
  obtain hcore | ⟨-, i, hi, hsreset, hturn⟩ := Turn.harmless_cases ha
  · exact absurd hcore hne
  · obtain ⟨t, ht, hframe⟩ := hostCannotDisturbRun i s hi hsreset hb
    refine ⟨t, (hturn s hadm).trans ht, ?_⟩
    rw [hframe]
    exact ⟨hadm, hb⟩

/-- What holds at the start, and where every scheduled turn leads to a next state in which it holds
again, holds after any number of steps. -/
theorem State.under_keeps {P : State → Prop} {sched : Schedule} (hs : P s)
    (hstep : ∀ t n, P t → ∃ u, step (t.placeTurn (sched n)) = .next u ∧ P u) (n : Nat) :
    ∃ t, s.under sched n = .next t ∧ P t := by
  induction n with
  | zero => exact ⟨s, rfl, hs⟩
  | succ n ih =>
    obtain ⟨t, ht, hP⟩ := ih
    rw [State.under_add_one ht]
    exact hstep t n hP

/-- Settles O60: a step by `State.Inv.step_answers`, further steps because each keeps the invariant
(`stepKeepsInvariant`); under a starving schedule each turn is `step_host_keeps_busy`. -/
theorem invariantStateAlwaysSteps : Obligations.InvariantStateAlwaysSteps := by
  refine ⟨fun s h => h.step_answers, fun s sched n h => ?_, fun s sched hadm hb hsched n => ?_⟩
  · have hstep (t : State) (k : Nat) (ht : t.Inv) :
        ∃ u, step (t.placeTurn (sched k)) = .next u ∧ u.Inv := by
      have hplaced : (t.placeTurn (sched k)).Inv := ht
      obtain ⟨u, hu⟩ := hplaced.step_answers
      exact ⟨u, hu, stepKeepsInvariant _ u hplaced hu⟩
    obtain ⟨t, ht, -⟩ := State.under_keeps h hstep n
    exact ⟨t, ht⟩
  · have hstep (t : State) (k : Nat) (ht : t.Admits ∧ t.busy = true) :
        ∃ u, step (t.placeTurn (sched k)) = .next u ∧ u.Admits ∧ u.busy = true := by
      obtain ⟨hadm, hb⟩ := ht
      obtain ⟨hharmless, hne⟩ := hsched k
      exact step_host_keeps_busy hharmless hne hadm hb
    obtain ⟨t, ht, -, hbusy⟩ := State.under_keeps ⟨hadm, hb⟩ hstep n
    exact ⟨t, ht, hbusy⟩

end Sys2Proof.Machine

/-! ## START while busy and the hardware reset (70_reset_and_hazards.md R240, R246) -/

namespace Sys2Proof.Machine

variable {s : State}

/-- A START while busy is ignored, before either check (60_exceptions.md R223 case 1). -/
theorem State.start_of_busy (hb : s.busy = true) : s.start = s := by
  rw [State.start, if_pos hb]

/-- Settles O43 by `State.start_of_busy`: what is left of the command is its response. -/
theorem startWhileBusyIgnored : Obligations.StartWhileBusyIgnored := by
  intro s r hb
  rw [exec, execCtrlStart, State.start_of_busy hb]
  rfl

/-- The reset input asks nothing of the state, not even that it holds no reserved code. -/
theorem step_of_powerOn (hturn : s.nextTurn = .powerOn) : step s = .next s.takeTurn.hardReset := by
  rw [step, fetch, hturn]

/-- Settles O55: the step is `step_of_powerOn`, and every register the statement names is
`State.reset`'s, whose values are `resetValues`. -/
theorem hardwareResetAbortsRun : Obligations.HardwareResetAbortsRun := by
  intro s hturn
  obtain ⟨hphase, hidx, hbusy, hdone, herr, herrcode, hlen, hdoneIe, herrIe, hptr, hblk, hnblk, -,
    hpb⟩ := resetValues
  exact ⟨s.takeTurn.hardReset, step_of_powerOn hturn, rfl, rfl, rfl, hphase, hidx, hbusy, hdone,
    herr, herrcode, hlen, hdoneIe, herrIe, hptr, hblk, hnblk, hpb⟩

end Sys2Proof.Machine
